-- ==== Sys2Proof/Word.lean ====
section
/-!
DEFINITION. The machine's word and byte types (00_scope.md R7). All arithmetic of the core is on `Word`: addition
modulo 65536, bitwise AND and bitwise complement are the `BitVec` operations `+`, `&&&` and `~~~`.
-/

namespace Sys2Proof

/-- "a 16-bit unsigned integer with modulo-65536 (wraparound) addition and bitwise semantics" (R7). Bit 15 is the most
significant bit. -/
abbrev Word := BitVec 16

/-- An 8-bit unsigned integer, 0 to 255 (R7): the unit of the console streams. -/
abbrev Byte := BitVec 8

end Sys2Proof
end

