-- ==== Sys2Proof/Syntax.lean ====
section
/-!
DEFINITION. The instructions of the core: one constructor for each of the 25 rows of spec/opcode_table.json, in the
table's order (30_encoding.md R93). Operand fields keep the widths of the formats R82 to R90; bits the formats mark
"ignored" are not part of an instruction (R94).
-/

namespace Sys2Proof

/-- A general register index, 0 to 7 (10_state.md R21): every value of a 3-bit index field names a register. -/
abbrev Reg := Fin 8

/-- The sixteen opcode classes (30_encoding.md R81, R93). -/
inductive Opcode where
  | br | add | ld | st | jsr | and | ldr | str | rti | not | ldi | sti | jmp | res | lea | trap
deriving DecidableEq, Repr

/-- An instruction, as the decoder hands it to the execution engine. -/
inductive Instr where
  /-- BR, format BR9: the three mask bits and PCoffset9 (R85, R150). -/
  | br (n z p : Bool) (off : BitVec 9)
  /-- ADD, register form, format RR: DR, SR1, SR2 (R82, R140). -/
  | addReg (dr sr1 sr2 : Reg)
  /-- ADD, immediate form, format RI: DR, SR1, imm5 (R83, R141). -/
  | addImm (dr sr1 : Reg) (imm : BitVec 5)
  /-- LD, format PC9: DR, PCoffset9 (R86, R160). -/
  | ld (dr : Reg) (off : BitVec 9)
  /-- ST, format PC9: SR, PCoffset9 (R86, R164). -/
  | st (sr : Reg) (off : BitVec 9)
  /-- JSR, format PC11: PCoffset11 (R89, R153). -/
  | jsr (off : BitVec 11)
  /-- JSRR, format BASE: baseR (R88, R154). -/
  | jsrr (baseR : Reg)
  /-- AND, register form, format RR: DR, SR1, SR2 (R82, R142). -/
  | andReg (dr sr1 sr2 : Reg)
  /-- AND, immediate form, format RI: DR, SR1, imm5 (R83, R143). -/
  | andImm (dr sr1 : Reg) (imm : BitVec 5)
  /-- LDR, format OFF6: DR, baseR, offset6 (R87, R162). -/
  | ldr (dr baseR : Reg) (off : BitVec 6)
  /-- STR, format OFF6: SR, baseR, offset6 (R87, R166). -/
  | str (sr baseR : Reg) (off : BitVec 6)
  /-- RTI, format NONE (R90, R200). -/
  | rti
  /-- NOT, format R1: DR, SR (R84, R144). -/
  | not (dr sr : Reg)
  /-- LDI, format PC9: DR, PCoffset9 (R86, R161). -/
  | ldi (dr : Reg) (off : BitVec 9)
  /-- STI, format PC9: SR, PCoffset9 (R86, R165). -/
  | sti (sr : Reg) (off : BitVec 9)
  /-- JMP, format BASE: baseR; RET is baseR = 7 (R88, R99, R152). -/
  | jmp (baseR : Reg)
  /-- RES, the reserved opcode, format NONE (R90, R201). -/
  | res
  /-- LEA, format PC9: DR, PCoffset9 (R86, R163). -/
  | lea (dr : Reg) (off : BitVec 9)
  /-- TRAP vector 0x20, GETC (R90, R182). -/
  | trapGetc
  /-- TRAP vector 0x21, OUT (R90, R183). -/
  | trapOut
  /-- TRAP vector 0x22, PUTS (R90, R184). -/
  | trapPuts
  /-- TRAP vector 0x23, IN (R90, R185). -/
  | trapIn
  /-- TRAP vector 0x24, PUTSP (R90, R186). -/
  | trapPutsp
  /-- TRAP vector 0x25, HALT (R90, R187). -/
  | trapHalt
  /-- TRAP with any other vector, format VEC8: vector8 (R90, R188). -/
  | trapUndefined (vector : BitVec 8)
deriving DecidableEq, Repr

end Sys2Proof
end

