-- ==== Sys2Proof/Config.lean ====
section
/-!
DEFINITION. The parameters of the hardware for which the source gives no number (00_scope.md R5), and the start address,
as fields of one structure. Their values, the spec's defaults, are `Sys2Proof.Machine.config` (Machine/Params.lean). The
list of loaded images is the argument of `State.resetWith` (Machine/Reset.lean). This spec leaves the value of no result
open, so there is no free value here.
-/

namespace Sys2Proof

/-- The field bit positions other than those of the opcode and the trap vector (R5): of each field of the formats R82 to
R89, the number of its lowest bit in the instruction word. A field's width is the source's and no parameter. -/
structure FieldPlaces where
  /-- DR, and SR of ST, STI and STR: 3 bits (R82 to R84, R86, R87). -/
  drSr : Nat
  /-- SR1, baseR, and SR of NOT: 3 bits (R82 to R84, R87, R88). -/
  sr1BaseR : Nat
  /-- SR2: 3 bits (R82). -/
  sr2 : Nat
  /-- The mode bit of ADD and AND (R82, R83). -/
  aluMode : Nat
  /-- The mode bit of JSR and JSRR (R88, R89). -/
  jsrMode : Nat
  /-- The mask bit n of BR (R85). -/
  n : Nat
  /-- The mask bit z of BR (R85). -/
  z : Nat
  /-- The mask bit p of BR (R85). -/
  p : Nat
  /-- imm5: 5 bits (R83). -/
  imm5 : Nat
  /-- offset6: 6 bits (R87). -/
  offset6 : Nat
  /-- PCoffset9: 9 bits (R85, R86). -/
  pcOffset9 : Nat
  /-- PCoffset11: 11 bits (R89). -/
  pcOffset11 : Nat
deriving DecidableEq, Repr

/-- The parameters of 00_scope.md R5 that a model takes as configuration fields. -/
structure Config where
  /-- `PC_START`, the address of the first fetch (10_state.md R26). -/
  pcStart : Word
  /-- `OPCODE_MAP`: the opcode at each value 0 to 15 of `ir[15:12]` (30_encoding.md R93). -/
  opcodeMap : Vector Opcode 16
  /-- The field bit positions (30_encoding.md R82 to R89). -/
  places : FieldPlaces
  /-- `KBSR_ADDR`, the keyboard status word (20_memory.md R53). -/
  kbsrAddr : Word
  /-- `KBDR_ADDR`, the keyboard data word (20_memory.md R53). -/
  kbdrAddr : Word
  /-- `IN_PROMPT`, the bytes the IN routine writes first (44_trap.md R185). -/
  inPrompt : List Byte
deriving DecidableEq, Repr

/-- The premise 20_memory.md R53 puts on the two keyboard addresses. -/
def Config.keyboardWordsDistinct (c : Config) : Bool := c.kbsrAddr != c.kbdrAddr

end Sys2Proof
end

