-- ==== Sys2Proof/Machine/Params.lean ====
section
/-!
DEFINITION. The values of the parameters: the defaults of 00_scope.md R5. `PC_START` is the source's; the opcode numbers,
the field positions, the keyboard addresses and the prompt are the spec's own, from general knowledge
(92_eei_decisions.md D1, D2, D3, D4, D11; log entries 9, 10 and 11, UNVERIFIED). This file stands under Machine/ so that
an audit can change a value, each in this one place.
-/

namespace Sys2Proof.Machine

/-- The 19 ASCII bytes of "Enter a character: " with its last space (D11). -/
def defaultPrompt : List Byte :=
  [0x45, 0x6E, 0x74, 0x65, 0x72, 0x20, 0x61, 0x20, 0x63, 0x68, 0x61, 0x72, 0x61, 0x63, 0x74, 0x65, 0x72, 0x3A, 0x20]

/-- `OPCODE_MAP` (D1): the opcode numbered 0 first. -/
def defaultOpcodeMap : Vector Opcode 16 :=
  #v[.br, .add, .ld, .st, .jsr, .and, .ldr, .str, .rti, .not, .ldi, .sti, .jmp, .res, .lea, .trap]

/-- The field bit positions (D2, D3). -/
def defaultPlaces : FieldPlaces where
  drSr := 9
  sr1BaseR := 6
  sr2 := 0
  aluMode := 5
  jsrMode := 11
  n := 11
  z := 10
  p := 9
  imm5 := 0
  offset6 := 0
  pcOffset9 := 0
  pcOffset11 := 0

/-- The parameters of this machine. -/
def config : Config where
  pcStart := 0x3000
  opcodeMap := defaultOpcodeMap
  places := defaultPlaces
  kbsrAddr := 0xFE00
  kbdrAddr := 0xFE02
  inPrompt := defaultPrompt

end Sys2Proof.Machine
end

