-- ==== Sys2Proof/Machine/State.lean ====
section
/-!
DEFINITION. The state of the machine (10_state.md R20): every row of that rule's table is a field of `State`, and
nothing else is. Plain data.
-/

namespace Sys2Proof.Machine

/-- The condition flag (10_state.md R27): exactly one of the three is active. -/
inductive Cond where
  | neg
  | zero
  | pos
deriving DecidableEq, Repr

/-- The cause of a fault (60_exceptions.md R211, R212). -/
inductive Cause where
  /-- Raised by RTI and RES; cause code 1. -/
  | illegalOpcode
  /-- Raised by TRAP with a vector outside 0x20 to 0x25; cause code 2. -/
  | illegalTrapVector
deriving DecidableEq, Repr

/-- The run state (10_state.md R31, 40_instruction_cycle.md R121). Only RUNNING has a step. -/
inductive RunState where
  | running
  /-- The HALT routine has run. -/
  | halted
  /-- A fault has been raised; the record of 60_exceptions.md R213. -/
  | faulted (cause : Cause) (info : Word)
  /-- The cancellation request was sampled. -/
  | cancelled
deriving DecidableEq, Repr

/-- One element of the console output (10_state.md R34): a byte, or the mark a flush leaves (20_memory.md R63). -/
inductive OutEvent where
  | byte (b : Byte)
  | flush
deriving DecidableEq, Repr

/-- One listed word of memory: its address and what it holds. The unit of addressing is the Word (20_memory.md R50), so
a cell holds a Word (log entry 1). -/
abbrev Cell := Nat × Word

/-- Memory (10_state.md R30): the listed words, addresses strictly rising, no word equal to what an unlisted address
reads as. That form is `Memory.wf` (Machine/Ops.lean). -/
abbrev Memory := List Cell

/-- The whole state of the machine (10_state.md R20). -/
structure State where
  /-- `x[0]` to `x[7]`, R21. -/
  regs : Vector Word 8
  /-- The program counter, R24: between instructions, the address of the next instruction to fetch. -/
  pc : Word
  /-- The condition flag, R27. -/
  cond : Cond
  /-- The 65536 Words of memory, R30. -/
  mem : Memory
  /-- The run state, R31. -/
  run : RunState
  /-- The instruction word being executed, R32. -/
  ir : Word
  /-- Console input supplied and not yet taken, head first, R33. -/
  kbq : List Byte
  /-- Everything sent to the console output, oldest first, R34. -/
  conout : List OutEvent
  /-- The cancellation request, R35. -/
  cancelReq : Bool
deriving DecidableEq, Repr

/-- Why a meaning has no next state. No step of the machine answers a fault: both names mark a case that `step` keeps
from its meanings. The hardware's own faults are NEXT states with `run = .faulted cause info` (60_exceptions.md R213). -/
inductive Fault where
  /-- Raised by the meanings of GETC and IN when no input byte is there: `KbdTake` then "has no result" (20_memory.md
  R61). `step` never reaches it, since a step that would take a byte is not begun while `kbq` is empty
  (40_instruction_cycle.md R127; log entry 7). Safe: the model stops, it invents no byte. -/
  | inputQueueEmpty
  /-- Raised by the meanings of PUTS and PUTSP when the string walk has made more reads than 44_trap.md R189 bounds it
  by. That bound is never passed on a well-formed memory (log entry 8). Safe: the model stops. -/
  | stringWalkEndless
deriving DecidableEq, Repr

/-- Why an instruction is refused. -/
inductive Refusal where
  /-- Raised by exec's arm of an instruction that has no meaning in the model; no arm raises it now. Safe: the model
  stops where the hardware goes on. -/
  | notModelled (mnemonic : String)
deriving DecidableEq, Repr

/-- The answer of a meaning, of `exec` and of `step`. -/
abbrev Answer := Host.Outcome State Fault Refusal

/-- The machine right after a reset with no image (70_reset_and_hazards.md R241, R242). The spec gives every value but
two: `ir` is unspecified and `kbq` is a launch premise; 0x0000 and the empty queue are the model's (log entries 2 and 3,
DESIGN CHOICE). `State.resetWith` (Machine/Reset.lean) is the reset with images. -/
def State.reset : State where
  regs := Vector.replicate 8 0x0000
  pc := config.pcStart
  cond := .zero
  mem := []
  run := .running
  ir := 0x0000
  kbq := []
  conout := []
  cancelReq := false

end Sys2Proof.Machine
end

