-- ==== Sys2Proof/Machine/Operands.lean ====
section
/-!
DEFINITION. How each operand is assembled: sign extension (30_encoding.md R91, R92), zero extension of a byte
(00_scope.md R8), the bytes of a Word (20_memory.md R64), and the register file's read (10_state.md R22).
-/

namespace Sys2Proof.Machine

/-- `sext_N` (R91): if the top bit of the field is 1, every higher bit is 1; otherwise the value is unchanged. -/
def sext (n : Nat) (v : BitVec n) : Word :=
  if v.msb then BitVec.ofNat 16 (v.toNat + (65536 - 2 ^ n)) else BitVec.ofNat 16 v.toNat

/-- `zext_8` (00_scope.md R8): the byte in bits 7 to 0, zeros above. -/
def zext8 (b : Byte) : Word := BitVec.ofNat 16 b.toNat

/-- `w[7:0]`, the byte OUT and PUTS write (R183, R184). -/
def lowByte (w : Word) : Byte := w.extractLsb' 0 8

/-- `w[15:8]`, the second character of a PUTSP Word (R186). -/
def highByte (w : Word) : Byte := w.extractLsb' 8 8

/-- `x[r]`: the register file's read, with no side effect (10_state.md R22). -/
def State.reg (s : State) (r : Reg) : Word := s.regs.get r

/-- The PC-relative address of LD, ST, LDI, STI and LEA, and the target of BR (43_load_store.md R159). `pc` is already
the address of the instruction plus one. -/
def State.pcRel9 (s : State) (off : BitVec 9) : Word := s.pc + sext 9 off

/-- The target of JSR (42_control_transfer.md R153). -/
def State.pcRel11 (s : State) (off : BitVec 11) : Word := s.pc + sext 11 off

/-- The base + offset address of LDR and STR (43_load_store.md R159). -/
def State.baseRel6 (s : State) (baseR : Reg) (off : BitVec 6) : Word := s.reg baseR + sext 6 off

end Sys2Proof.Machine
end

