-- ==== Sys2Proof/Machine/Ops.lean ====
section
/-!
DEFINITION. The named operations over the state: one update per field, memory's raw read and write with its canonical
form, the primitives of 00_scope.md R8 (`MemRead`, `MemWrite`, `KbdPoll`, `KbdTake`, `ConOut`, `ConFlush`, `raise`), and
what the host may do between two steps (00_scope.md R13). There is no return from an exception on this hardware
(60_exceptions.md R219).
-/

namespace Sys2Proof.Machine

/-! Memory as data. -/

/-- What an address that is not listed reads as: memory is zero-filled at reset (70_reset_and_hazards.md R241). -/
def Memory.unlisted : Word := 0x0000

/-- `mem[a]`, the stored Word, with no intercept (00_scope.md R8). -/
def Memory.read : Memory → Nat → Word
  | [], _ => Memory.unlisted
  | (b, w) :: m, a => if a = b then w else Memory.read m a

/-- `mem[a] <- v`, with no intercept. The list stays in its canonical form. -/
def Memory.write : Memory → Nat → Word → Memory
  | [], a, v => if v = Memory.unlisted then [] else [(a, v)]
  | (b, w) :: m, a, v =>
    if a < b then if v = Memory.unlisted then (b, w) :: m else (a, v) :: (b, w) :: m
    else if a = b then if v = Memory.unlisted then m else (a, v) :: m
    else (b, w) :: Memory.write m a v

/-- The canonical form: addresses strictly rising and inside the 65536 Words, no word equal to what an unlisted address
reads as. -/
abbrev Memory.wf (m : Memory) : Prop :=
  m.Pairwise (fun c d => c.1 < d.1) ∧ ∀ c ∈ m, c.1 < 65536 ∧ c.2 ≠ Memory.unlisted

/-! One update per field. -/

/-- `x[r] <- v` (10_state.md R22): a write replaces the whole Word. -/
def State.setReg (s : State) (r : Reg) (v : Word) : State := { s with regs := s.regs.set r v }

def State.setPc (s : State) (v : Word) : State := { s with pc := v }

def State.setCond (s : State) (c : Cond) : State := { s with cond := c }

def State.setMem (s : State) (m : Memory) : State := { s with mem := m }

def State.setRun (s : State) (r : RunState) : State := { s with run := r }

def State.setIr (s : State) (w : Word) : State := { s with ir := w }

def State.setKbq (s : State) (q : List Byte) : State := { s with kbq := q }

def State.setConout (s : State) (o : List OutEvent) : State := { s with conout := o }

def State.setCancelReq (s : State) (b : Bool) : State := { s with cancelReq := b }

/-! Memory and the console. -/

/-- `mem[a]` for an address Word. -/
def State.word (s : State) (a : Word) : Word := s.mem.read a.toNat

/-- `MemWrite(a, 1, v)` (20_memory.md R56): a direct store at every address, the keyboard words included (R57). -/
def State.memWrite (s : State) (a v : Word) : State := s.setMem (s.mem.write a.toNat v)

/-- `KbdPoll()` (20_memory.md R60): whether an input byte is there; takes nothing. -/
def State.kbdPoll (s : State) : Bool := !s.kbq.isEmpty

/-- `KbdTake()` (20_memory.md R61): the byte at the head of `kbq`, which leaves the queue; no result when there is
none. -/
def State.kbdTake (s : State) : Option (Byte × State) :=
  match s.kbq with
  | [] => none
  | b :: q => some (b, s.setKbq q)

/-- The intercept of 20_memory.md R54, run by a read of `KBSR_ADDR` before the stored Word is returned. -/
def State.pollKeyboard (s : State) : State :=
  match s.kbdTake with
  | some (b, s') => (s'.memWrite config.kbsrAddr 0x8000).memWrite config.kbdrAddr (zext8 b)
  | none => s.memWrite config.kbsrAddr 0x0000

/-- `MemRead(a, 1)` (20_memory.md R54): the Word read and the state after the read. Every read of the core is this one
(R58). -/
def State.memRead (s : State) (a : Word) : Word × State :=
  let s' := if a = config.kbsrAddr then s.pollKeyboard else s
  (s'.word a, s')

/-- `ConOut(b)` (20_memory.md R62). -/
def State.conOut (s : State) (b : Byte) : State := s.setConout (s.conout ++ [.byte b])

/-- `ConOut` of each byte, in order. -/
def State.conOutAll : State → List Byte → State
  | s, [] => s
  | s, b :: bs => (s.conOut b).conOutAll bs

/-- `ConFlush()` (20_memory.md R63). -/
def State.conFlush (s : State) : State := s.setConout (s.conout ++ [.flush])

/-- `x[7] <- pc`: the link of JSR, JSRR and every TRAP (R153, R154, R180). -/
def State.linkR7 (s : State) : State := s.setReg 7 s.pc

/-! Faults. -/

/-- Cause codes 1 and 2 (60_exceptions.md R211, R212). No instruction reads them. -/
def Cause.code : Cause → Nat
  | .illegalOpcode => 1
  | .illegalTrapVector => 2

/-- Taking a fault (60_exceptions.md R211 to R213, R217): `run` gets the record and nothing else changes; nothing is
saved and control goes nowhere. The state it leaves is terminal. -/
def State.raise (s : State) (cause : Cause) (info : Word) : State := s.setRun (.faulted cause info)

/-- HALT's effect on the run state (44_trap.md R187). -/
def State.halt (s : State) : State := s.setRun .halted

/-! What the host may do between two steps (00_scope.md R13). -/

/-- The console input provider appends bytes to the tail of `kbq` (10_state.md R33). -/
def State.supplyInput (s : State) (bs : List Byte) : State := s.setKbq (s.kbq ++ bs)

/-- The canceller raises the cancellation request, which then stays raised (10_state.md R35). -/
def State.requestCancel (s : State) : State := s.setCancelReq true

end Sys2Proof.Machine
end

