-- ==== Sys2Proof/Machine/Flags.lean ====
section
/-!
DEFINITION. The condition flag: `setcc` (40_instruction_cycle.md R126), its numeric form `condmask` (10_state.md R28)
and the test of BR (42_control_transfer.md R150).
-/

namespace Sys2Proof.Machine

/-- The flag of a Word (R126). -/
def condOf (v : Word) : Cond :=
  if v = 0x0000 then .zero else if v.msb then .neg else .pos

/-- `setcc(v)` (R126): `cond` becomes the flag of `v`; "no side effects beyond flag field replacement". -/
def State.setcc (s : State) (v : Word) : State := s.setCond (condOf v)

/-- The common end of a flag-setting operation: `x[dr] <- v`, then `setcc(v)`. -/
def State.setRegCC (s : State) (dr : Reg) (v : Word) : State := (s.setReg dr v).setcc v

/-- `condmask` (10_state.md R28): the one-hot 3-bit form, in the order of the BR mask. -/
def Cond.mask : Cond → BitVec 3
  | .neg => 0b100
  | .zero => 0b010
  | .pos => 0b001

/-- Whether a BR with mask bits `n`, `z`, `p` is taken (R150). -/
def brTaken (n z p : Bool) (c : Cond) : Bool :=
  (n && c == .neg) || (z && c == .zero) || (p && c == .pos)

end Sys2Proof.Machine
end

