-- ==== Sys2Proof/Machine/ControlTransfer.lean ====
section
/-!
DEFINITION. BR, JMP (RET), JSR and JSRR (42_control_transfer.md R150 to R155). In every meaning `pc` is the address of
the instruction plus one; targets wrap and need no alignment.
-/

namespace Sys2Proof.Machine

/-- BR (R150, R151): taken when a mask bit meets the active flag. -/
def execBr (n z p : Bool) (off : BitVec 9) (s : State) : Answer :=
  .next (if brTaken n z p s.cond then s.setPc (s.pcRel9 off) else s)

/-- JMP (R152); RET is baseR = 7 with no special treatment. -/
def execJmp (baseR : Reg) (s : State) : Answer := .next (s.setPc (s.reg baseR))

/-- JSR (R153): the link, then the PC-relative target. -/
def execJsr (off : BitVec 11) (s : State) : Answer := .next (s.linkR7.setPc (s.linkR7.pcRel11 off))

/-- JSRR (R154): R7 is written first and baseR is read afterwards, so `JSRR R7` goes to the return address
(92_eei_decisions.md D13, log entry 13). -/
def execJsrr (baseR : Reg) (s : State) : Answer := .next (s.linkR7.setPc (s.linkR7.reg baseR))

end Sys2Proof.Machine
end

