-- ==== Sys2Proof/Machine/LoadStore.lean ====
section
/-!
DEFINITION. LD, LDI, LDR, LEA, ST, STI and STR (43_load_store.md R159 to R166). Every read is `State.memRead` and so
goes through the keyboard intercept; no address faults.
-/

namespace Sys2Proof.Machine

/-- The common part of LD and LDR: one read, then DR and the flag. -/
def State.loadTo (s : State) (dr : Reg) (a : Word) : State := (s.memRead a).2.setRegCC dr (s.memRead a).1

/-- LD (R160). -/
def execLd (dr : Reg) (off : BitVec 9) (s : State) : Answer := .next (s.loadTo dr (s.pcRel9 off))

/-- LDI (R161): the first read is the pointer, the second the data; both go through the intercept. -/
def execLdi (dr : Reg) (off : BitVec 9) (s : State) : Answer :=
  let p := s.memRead (s.pcRel9 off)
  .next (p.2.loadTo dr p.1)

/-- LDR (R162): baseR is read before DR is written. -/
def execLdr (dr baseR : Reg) (off : BitVec 6) (s : State) : Answer := .next (s.loadTo dr (s.baseRel6 baseR off))

/-- LEA (R163): no memory access; the flag is set from the address. -/
def execLea (dr : Reg) (off : BitVec 9) (s : State) : Answer := .next (s.setRegCC dr (s.pcRel9 off))

/-- ST (R164). -/
def execSt (sr : Reg) (off : BitVec 9) (s : State) : Answer := .next (s.memWrite (s.pcRel9 off) (s.reg sr))

/-- STI (R165): the pointer is read, through the intercept, before the data is written. -/
def execSti (sr : Reg) (off : BitVec 9) (s : State) : Answer :=
  let p := s.memRead (s.pcRel9 off)
  .next (p.2.memWrite p.1 (p.2.reg sr))

/-- STR (R166). -/
def execStr (sr baseR : Reg) (off : BitVec 6) (s : State) : Answer :=
  .next (s.memWrite (s.baseRel6 baseR off) (s.reg sr))

end Sys2Proof.Machine
end

