-- ==== Sys2Proof/Machine/Operate.lean ====
section
/-!
DEFINITION. ADD, AND and NOT (41_operate.md R140 to R145). Both sources are read before DR is written; the result sets
the condition flag; no carry, no overflow, no exception.
-/

namespace Sys2Proof.Machine

/-- ADD, register form (R140). -/
def execAddReg (dr sr1 sr2 : Reg) (s : State) : Answer := .next (s.setRegCC dr (s.reg sr1 + s.reg sr2))

/-- ADD, immediate form (R141). -/
def execAddImm (dr sr1 : Reg) (imm : BitVec 5) (s : State) : Answer := .next (s.setRegCC dr (s.reg sr1 + sext 5 imm))

/-- AND, register form (R142). -/
def execAndReg (dr sr1 sr2 : Reg) (s : State) : Answer := .next (s.setRegCC dr (s.reg sr1 &&& s.reg sr2))

/-- AND, immediate form (R143): the immediate is sign-extended before the AND. -/
def execAndImm (dr sr1 : Reg) (imm : BitVec 5) (s : State) : Answer := .next (s.setRegCC dr (s.reg sr1 &&& sext 5 imm))

/-- NOT (R144). -/
def execNot (dr sr : Reg) (s : State) : Answer := .next (s.setRegCC dr (~~~(s.reg sr)))

end Sys2Proof.Machine
end

