-- ==== Sys2Proof/Machine/Trap.lean ====
section
/-!
DEFINITION. TRAP: the six console routines and the undefined vectors (44_trap.md R180 to R190). Every TRAP first writes
R7 (R180); a routine runs inside the one step of its TRAP and never changes `pc` (R181).
-/

namespace Sys2Proof.Machine

/-- GETC, vector 0x20 (R182): takes one byte into R0 and sets the flag; no echo, no flush. -/
def execTrapGetc (s : State) : Answer :=
  match s.linkR7.kbdTake with
  | some (b, s') => .next (s'.setRegCC 0 (zext8 b))
  | none => .fault .inputQueueEmpty

/-- OUT, vector 0x21 (R183): the low byte of R0, then a flush. -/
def execTrapOut (s : State) : Answer := .next (s.linkR7.conOut (lowByte (s.linkR7.reg 0))).conFlush

/-- The loop of PUTS and PUTSP (R184, R186): read the Word at `a`; stop at a zero Word, else write the bytes
`chars` gives for it and go on at `a + 1`. `fuel` is how many reads are left; none is answered when they are spent. -/
def stringWalk (chars : Word → List Byte) : Nat → Word → State → Option State
  | 0, _, _ => none
  | fuel + 1, a, s =>
    let r := s.memRead a
    if r.1 = 0x0000 then some r.2 else stringWalk chars fuel (a + 1) (r.2.conOutAll (chars r.1))

/-- The number of reads that bounds every walk that starts with this queue (R189): "(length of `kbq` + 1) x 65536", one
round of memory for each byte and one more. -/
def walkFuel : List Byte → Nat
  | [] => 65536
  | _ :: q => 65536 + walkFuel q

/-- PUTS and PUTSP after the link: the walk from R0, then a flush. R0 itself is not changed. -/
def State.putString (s : State) (chars : Word → List Byte) : Answer :=
  match stringWalk chars (walkFuel s.kbq) (s.reg 0) s with
  | some s' => .next s'.conFlush
  | none => .fault .stringWalkEndless

/-- The characters PUTS writes for a Word (R184): its low byte. -/
def putsChars (w : Word) : List Byte := [lowByte w]

/-- The characters PUTSP writes for a Word (R186): the low byte always, the high byte only if it is not zero. -/
def putspChars (w : Word) : List Byte :=
  if highByte w = 0x00 then [lowByte w] else [lowByte w, highByte w]

/-- PUTS, vector 0x22 (R184). -/
def execTrapPuts (s : State) : Answer := s.linkR7.putString putsChars

/-- IN, vector 0x23 (R185): prompt, take, echo, one flush, then R0 and the flag. -/
def execTrapIn (s : State) : Answer :=
  match (s.linkR7.conOutAll config.inPrompt).kbdTake with
  | some (b, s') => .next ((s'.conOut b).conFlush.setRegCC 0 (zext8 b))
  | none => .fault .inputQueueEmpty

/-- PUTSP, vector 0x24 (R186). -/
def execTrapPutsp (s : State) : Answer := s.linkR7.putString putspChars

/-- HALT, vector 0x25 (R187): nothing is written to the console. -/
def execTrapHalt (s : State) : Answer := .next s.linkR7.halt

/-- TRAP with an undefined vector (R188): the common link, then the fault `IllegalTrapVector`
(92_eei_decisions.md D6, log entry 14). -/
def execTrapUndefined (vector : BitVec 8) (s : State) : Answer :=
  .next (s.linkR7.raise .illegalTrapVector (zext8 vector))

end Sys2Proof.Machine
end

