-- ==== Sys2Proof/Machine/Undefined.lean ====
section
/-!
DEFINITION. RTI and RES, the two opcodes with no semantics in the source (45_undefined_opcodes.md R200 to R202): each
raises `IllegalOpcode` with the instruction word as the record's value, and nothing else changes
(92_eei_decisions.md D5, log entry 14). RTI is a return from nothing on this hardware.
-/

namespace Sys2Proof.Machine

/-- RTI (R200). -/
def execRti (s : State) : Answer := .next (s.raise .illegalOpcode s.ir)

/-- RES (R201). -/
def execRes (s : State) : Answer := .next (s.raise .illegalOpcode s.ir)

end Sys2Proof.Machine
end

