-- ==== Sys2Proof/WellFormed.lean ====
section
/-!
DEFINITION. Which instructions are well formed. The field types rule out every operand value that the formats cannot
hold; the one check left is that `trapUndefined` does not carry one of the six vectors that have a routine of their own
(30_encoding.md R93: the last row applies "only when none of the six vector rows does").
-/

namespace Sys2Proof

/-- The six trap vectors with a routine, 0x20 to 0x25 (44_trap.md R180). -/
def definedVector (v : BitVec 8) : Bool := 0x20#8 ≤ v && v ≤ 0x25#8

/-- The instruction is one the decoder can answer. -/
def Instr.wellFormed : Instr → Bool
  | .br _ _ _ _ => true
  | .addReg _ _ _ => true
  | .addImm _ _ _ => true
  | .ld _ _ => true
  | .st _ _ => true
  | .jsr _ => true
  | .jsrr _ => true
  | .andReg _ _ _ => true
  | .andImm _ _ _ => true
  | .ldr _ _ _ => true
  | .str _ _ _ => true
  | .rti => true
  | .not _ _ => true
  | .ldi _ _ => true
  | .sti _ _ => true
  | .jmp _ => true
  | .res => true
  | .lea _ _ => true
  | .trapGetc => true
  | .trapOut => true
  | .trapPuts => true
  | .trapIn => true
  | .trapPutsp => true
  | .trapHalt => true
  | .trapUndefined v => !definedVector v

end Sys2Proof
end

