-- ==== Sys2Proof/Decode.lean ====
section
/-!
DEFINITION. The decoder and, after it, the encoder (30_encoding.md R80 to R96). Every instruction is one Word and the
opcode map is total (R93), so `decode` answers an instruction for every Word and rejects none: the Words with no
semantics in the source are the instructions RTI, RES and TRAP with an undefined vector. The opcode numbers and the
field positions are parameters (00_scope.md R5; 92_eei_decisions.md D1, D2, D3; log entry 9, UNVERIFIED), read here from
`config`; only the places of the opcode, `ir[15:12]`, and of the vector, `ir[7:0]`, are the source's and stand here.
-/

namespace Sys2Proof

open Machine (config)

/-- Where the fields stand (R82 to R89). -/
abbrev places : FieldPlaces := config.places

/-- `ir[lo + n - 1 : lo]` (00_scope.md R7). -/
def fieldAt (w : Word) (lo n : Nat) : BitVec n := w.extractLsb' lo n

/-- One bit of the instruction word. -/
def bitAt (w : Word) (i : Nat) : Bool := w.getLsbD i

/-- A 3-bit register index field (R92). -/
def regAt (w : Word) (lo : Nat) : Reg := (fieldAt w lo 3).toFin

/-- "Pure function `opcode(instr) = instr >> 12`" (R81), read through the opcode map. -/
def opcodeOf (w : Word) : Opcode := config.opcodeMap.get (fieldAt w 12 4).toFin

/-- The TRAP rows of R93: the six vectors with a routine, then every other vector. -/
def decodeTrap (v : BitVec 8) : Instr :=
  if v = 0x20#8 then .trapGetc
  else if v = 0x21#8 then .trapOut
  else if v = 0x22#8 then .trapPuts
  else if v = 0x23#8 then .trapIn
  else if v = 0x24#8 then .trapPutsp
  else if v = 0x25#8 then .trapHalt
  else .trapUndefined v

/-- The decoder (R93): the opcode, then the mode bit for ADD, AND and JSR, `ir[7:0]` for TRAP, and nothing else
selects an instruction. Ignored bits are not read (R94). -/
def decode (w : Word) : Instr :=
  match opcodeOf w with
  | .br => .br (bitAt w places.n) (bitAt w places.z) (bitAt w places.p) (fieldAt w places.pcOffset9 9)
  | .add =>
    if bitAt w places.aluMode then .addImm (regAt w places.drSr) (regAt w places.sr1BaseR) (fieldAt w places.imm5 5)
    else .addReg (regAt w places.drSr) (regAt w places.sr1BaseR) (regAt w places.sr2)
  | .ld => .ld (regAt w places.drSr) (fieldAt w places.pcOffset9 9)
  | .st => .st (regAt w places.drSr) (fieldAt w places.pcOffset9 9)
  | .jsr => if bitAt w places.jsrMode then .jsr (fieldAt w places.pcOffset11 11) else .jsrr (regAt w places.sr1BaseR)
  | .and =>
    if bitAt w places.aluMode then .andImm (regAt w places.drSr) (regAt w places.sr1BaseR) (fieldAt w places.imm5 5)
    else .andReg (regAt w places.drSr) (regAt w places.sr1BaseR) (regAt w places.sr2)
  | .ldr => .ldr (regAt w places.drSr) (regAt w places.sr1BaseR) (fieldAt w places.offset6 6)
  | .str => .str (regAt w places.drSr) (regAt w places.sr1BaseR) (fieldAt w places.offset6 6)
  | .rti => .rti
  | .not => .not (regAt w places.drSr) (regAt w places.sr1BaseR)
  | .ldi => .ldi (regAt w places.drSr) (fieldAt w places.pcOffset9 9)
  | .sti => .sti (regAt w places.drSr) (fieldAt w places.pcOffset9 9)
  | .jmp => .jmp (regAt w places.sr1BaseR)
  | .res => .res
  | .lea => .lea (regAt w places.drSr) (fieldAt w places.pcOffset9 9)
  | .trap => decodeTrap (fieldAt w 0 8)

/-- The Word the opcode table's bits `w` stand for: the low `nbits` bits of `w`, every higher bit 0. An instruction of
this core is one Word (R80), so bit `i` of the table is bit `i` of the Word. -/
def tableWord (nbits w : Nat) : Word := BitVec.ofNat 16 (w % 2 ^ nbits)

/-- What the decoder answers for a row of spec/opcode_table.json; it refuses no Word. -/
def decodeTableWord (nbits w : Nat) : Option Instr := some (decode (tableWord nbits w))

/-- The number of an opcode: its place in the opcode map. -/
def opcodeNumber (o : Opcode) : BitVec 4 := BitVec.ofNat 4 (config.opcodeMap.toList.idxOf o)

/-- A register index as a 3-bit field. -/
def regField (r : Reg) : BitVec 3 := BitVec.ofFin r

/-- A field put at its place in the Word: bit 0 of `v` at bit `lo`, zeros elsewhere. -/
def place {n : Nat} (lo : Nat) (v : BitVec n) : Word := v.setWidth 16 <<< lo

/-- `ir[15:12]`. -/
def placeOpcode (o : Opcode) : Word := place 12 (opcodeNumber o)

/-- A register index field. -/
def placeReg (lo : Nat) (r : Reg) : Word := place lo (regField r)

/-- One bit. -/
def placeBit (lo : Nat) (b : Bool) : Word := place lo (BitVec.ofBool b)

/-- The Word of an instruction, by the formats R82 to R90. Ignored bits are written as an assembler writes them (R94):
0, and 1 in `ir[5:0]` of NOT. -/
def encode : Instr → Word
  | .br n z p off =>
    placeOpcode .br ||| placeBit places.n n ||| placeBit places.z z ||| placeBit places.p p |||
      place places.pcOffset9 off
  | .addReg dr sr1 sr2 =>
    placeOpcode .add ||| placeReg places.drSr dr ||| placeReg places.sr1BaseR sr1 |||
      placeBit places.aluMode false ||| placeReg places.sr2 sr2
  | .addImm dr sr1 imm =>
    placeOpcode .add ||| placeReg places.drSr dr ||| placeReg places.sr1BaseR sr1 |||
      placeBit places.aluMode true ||| place places.imm5 imm
  | .ld dr off => placeOpcode .ld ||| placeReg places.drSr dr ||| place places.pcOffset9 off
  | .st sr off => placeOpcode .st ||| placeReg places.drSr sr ||| place places.pcOffset9 off
  | .jsr off => placeOpcode .jsr ||| placeBit places.jsrMode true ||| place places.pcOffset11 off
  | .jsrr baseR => placeOpcode .jsr ||| placeBit places.jsrMode false ||| placeReg places.sr1BaseR baseR
  | .andReg dr sr1 sr2 =>
    placeOpcode .and ||| placeReg places.drSr dr ||| placeReg places.sr1BaseR sr1 |||
      placeBit places.aluMode false ||| placeReg places.sr2 sr2
  | .andImm dr sr1 imm =>
    placeOpcode .and ||| placeReg places.drSr dr ||| placeReg places.sr1BaseR sr1 |||
      placeBit places.aluMode true ||| place places.imm5 imm
  | .ldr dr baseR off =>
    placeOpcode .ldr ||| placeReg places.drSr dr ||| placeReg places.sr1BaseR baseR |||
      place places.offset6 off
  | .str sr baseR off =>
    placeOpcode .str ||| placeReg places.drSr sr ||| placeReg places.sr1BaseR baseR |||
      place places.offset6 off
  | .rti => placeOpcode .rti
  | .not dr sr => placeOpcode .not ||| placeReg places.drSr dr ||| placeReg places.sr1BaseR sr ||| place 0 0x3F#6
  | .ldi dr off => placeOpcode .ldi ||| placeReg places.drSr dr ||| place places.pcOffset9 off
  | .sti sr off => placeOpcode .sti ||| placeReg places.drSr sr ||| place places.pcOffset9 off
  | .jmp baseR => placeOpcode .jmp ||| placeReg places.sr1BaseR baseR
  | .res => placeOpcode .res
  | .lea dr off => placeOpcode .lea ||| placeReg places.drSr dr ||| place places.pcOffset9 off
  | .trapGetc => placeOpcode .trap ||| place 0 0x20#8
  | .trapOut => placeOpcode .trap ||| place 0 0x21#8
  | .trapPuts => placeOpcode .trap ||| place 0 0x22#8
  | .trapIn => placeOpcode .trap ||| place 0 0x23#8
  | .trapPutsp => placeOpcode .trap ||| place 0 0x24#8
  | .trapHalt => placeOpcode .trap ||| place 0 0x25#8
  | .trapUndefined v => placeOpcode .trap ||| place 0 v

/-- The bits of an `n`-bit field at `lo`. -/
def fieldMask (lo n : Nat) : Word := place lo (BitVec.allOnes n)

/-- `ir[15:12]` as a mask. -/
def opcodeMask : Word := fieldMask 12 4

/-- Match and mask of a row that the opcode alone selects. -/
def opcodeRow (o : Opcode) : Word × Word := (placeOpcode o, opcodeMask)

/-- Match and mask of a row that the opcode and a mode bit select. -/
def modeRow (o : Opcode) (lo : Nat) (b : Bool) : Word × Word :=
  (placeOpcode o ||| placeBit lo b, opcodeMask ||| fieldMask lo 1)

/-- Match and mask of a row that the opcode TRAP and a vector select. -/
def vectorRow (v : BitVec 8) : Word × Word := (placeOpcode .trap ||| place 0 v, opcodeMask ||| fieldMask 0 8)

/-- The columns match and mask of R93 for the row of an instruction: a Word is in the row when
`(word &&& mask) = match`. -/
def tableRow : Instr → Word × Word
  | .br _ _ _ _ => opcodeRow .br
  | .addReg _ _ _ => modeRow .add places.aluMode false
  | .addImm _ _ _ => modeRow .add places.aluMode true
  | .ld _ _ => opcodeRow .ld
  | .st _ _ => opcodeRow .st
  | .jsr _ => modeRow .jsr places.jsrMode true
  | .jsrr _ => modeRow .jsr places.jsrMode false
  | .andReg _ _ _ => modeRow .and places.aluMode false
  | .andImm _ _ _ => modeRow .and places.aluMode true
  | .ldr _ _ _ => opcodeRow .ldr
  | .str _ _ _ => opcodeRow .str
  | .rti => opcodeRow .rti
  | .not _ _ => opcodeRow .not
  | .ldi _ _ => opcodeRow .ldi
  | .sti _ _ => opcodeRow .sti
  | .jmp _ => opcodeRow .jmp
  | .res => opcodeRow .res
  | .lea _ _ => opcodeRow .lea
  | .trapGetc => vectorRow 0x20
  | .trapOut => vectorRow 0x21
  | .trapPuts => vectorRow 0x22
  | .trapIn => vectorRow 0x23
  | .trapPutsp => vectorRow 0x24
  | .trapHalt => vectorRow 0x25
  | .trapUndefined _ => opcodeRow .trap

/-- The used bits of the format PC9 (R86): opcode, DR or SR, PCoffset9. -/
def usedBitsPC9 : Word :=
  opcodeMask ||| fieldMask places.drSr 3 ||| fieldMask places.pcOffset9 9

/-- The used bits of the format RR (R82). -/
def usedBitsRR : Word :=
  opcodeMask ||| fieldMask places.drSr 3 ||| fieldMask places.sr1BaseR 3 |||
    fieldMask places.aluMode 1 ||| fieldMask places.sr2 3

/-- The used bits of the format RI (R83). -/
def usedBitsRI : Word :=
  opcodeMask ||| fieldMask places.drSr 3 ||| fieldMask places.sr1BaseR 3 |||
    fieldMask places.aluMode 1 ||| fieldMask places.imm5 5

/-- The used bits of the format OFF6 (R87). -/
def usedBitsOFF6 : Word :=
  opcodeMask ||| fieldMask places.drSr 3 ||| fieldMask places.sr1BaseR 3 |||
    fieldMask places.offset6 6

/-- The used bits of the format VEC8 (R90). -/
def usedBitsVEC8 : Word := opcodeMask ||| fieldMask 0 8

/-- The bits of the Word that take part in decoding or execution (R94): all but the format's ignored bits. -/
def usedBits : Instr → Word
  | .br _ _ _ _ =>
    opcodeMask ||| fieldMask places.n 1 ||| fieldMask places.z 1 ||| fieldMask places.p 1 |||
      fieldMask places.pcOffset9 9
  | .addReg _ _ _ => usedBitsRR
  | .addImm _ _ _ => usedBitsRI
  | .ld _ _ => usedBitsPC9
  | .st _ _ => usedBitsPC9
  | .jsr _ => opcodeMask ||| fieldMask places.jsrMode 1 ||| fieldMask places.pcOffset11 11
  | .jsrr _ => opcodeMask ||| fieldMask places.jsrMode 1 ||| fieldMask places.sr1BaseR 3
  | .andReg _ _ _ => usedBitsRR
  | .andImm _ _ _ => usedBitsRI
  | .ldr _ _ _ => usedBitsOFF6
  | .str _ _ _ => usedBitsOFF6
  | .rti => opcodeMask
  | .not _ _ => opcodeMask ||| fieldMask places.drSr 3 ||| fieldMask places.sr1BaseR 3
  | .ldi _ _ => usedBitsPC9
  | .sti _ _ => usedBitsPC9
  | .jmp _ => opcodeMask ||| fieldMask places.sr1BaseR 3
  | .res => opcodeMask
  | .lea _ _ => usedBitsPC9
  | .trapGetc => usedBitsVEC8
  | .trapOut => usedBitsVEC8
  | .trapPuts => usedBitsVEC8
  | .trapIn => usedBitsVEC8
  | .trapPutsp => usedBitsVEC8
  | .trapHalt => usedBitsVEC8
  | .trapUndefined _ => usedBitsVEC8

end Sys2Proof
end

