-- ==== Sys2Proof/Machine/Fetch.lean ====
section
/-!
DEFINITION. The fetch (40_instruction_cycle.md R122 lines 2 and 3, R123) and the look that decides, without a fetch,
whether the core waits for console input (R127).
-/

namespace Sys2Proof.Machine

/-- FETCH: `ir <- MemRead(pc, 1)`, through the intercept, then `pc <- pc + 1` (R122). -/
def State.fetch (s : State) : State :=
  let r := s.memRead s.pc
  (r.2.setIr r.1).setPc (s.pc + 1)

/-- The instructions that call `KbdTake()`: GETC and IN (R127). -/
def takesInput : Instr → Bool
  | .br _ _ _ _ => false
  | .addReg _ _ _ => false
  | .addImm _ _ _ => false
  | .ld _ _ => false
  | .st _ _ => false
  | .jsr _ => false
  | .jsrr _ => false
  | .andReg _ _ _ => false
  | .andImm _ _ _ => false
  | .ldr _ _ _ => false
  | .str _ _ _ => false
  | .rti => false
  | .not _ _ => false
  | .ldi _ _ => false
  | .sti _ _ => false
  | .jmp _ => false
  | .res => false
  | .lea _ _ => false
  | .trapGetc => true
  | .trapOut => false
  | .trapPuts => false
  | .trapIn => true
  | .trapPutsp => false
  | .trapHalt => false
  | .trapUndefined _ => false

/-- Whether the next instruction is a GETC or IN, decided without a memory access (R127): not when `pc` is `KBSR_ADDR`,
otherwise by the stored Word at `pc`. -/
def State.inputTrapNext (s : State) : Bool := s.pc != config.kbsrAddr && takesInput (decode (s.word s.pc))

/-- The core waits (R127): the next instruction is a GETC or IN and no input byte is there. -/
def State.awaitsInput (s : State) : Bool := s.inputTrapNext && !s.kbdPoll

end Sys2Proof.Machine
end

