-- ==== Sys2Proof/Machine/Step.lean ====
section
/-!
DEFINITION. One step of the core (40_instruction_cycle.md R122, R127, R128).
-/

namespace Sys2Proof.Machine

/-- One step. RUNNING: the cancellation request is sampled first; a GETC or IN without its byte is not begun and the
core waits in the state it is in (R127, log entry 5); otherwise fetch, decode, execute. In an ended run the core does
nothing (R128, log entry 6). -/
def step (s : State) : Host.Outcome State Fault Refusal :=
  match s.run with
  | .running =>
    if s.cancelReq then .next (s.setRun .cancelled)
    else if s.awaitsInput then .next s
    else exec (decode s.fetch.ir) s.fetch
  | .halted => .next s
  | .faulted _ _ => .next s
  | .cancelled => .next s

/-- `s` made ready to fetch: running, no cancellation request, and `pc` not at `KBSR_ADDR`, where no stored Word is ever
fetched (R123). Changes nothing in a state that is so already, as `State.reset` is (log entry 17). -/
def State.readyToFetch (s : State) : State :=
  ((s.setRun .running).setCancelReq false).setPc (if s.pc = config.kbsrAddr then config.pcStart else s.pc)

/-- `s` with the Word of a table row stored where `step` fetches next, so that the very next step runs it. A GETC or IN
runs only with an input byte there (R127): where the queue is empty, one byte 0x41 is supplied (log entry 17). -/
def State.withFetchWord (s : State) (nbits w : Nat) : State :=
  let s' := s.readyToFetch.memWrite s.readyToFetch.pc (tableWord nbits w)
  if s'.awaitsInput then s'.supplyInput [0x41] else s'

end Sys2Proof.Machine
end

