-- ==== Sys2Proof/Machine/Agents.lean ====
section
/-!
DEFINITION. The core together with its host (00_scope.md R10, R13): between two core steps the host may append input
bytes and may raise the cancellation request, under no law. A run of the whole is a list of events.
-/

namespace Sys2Proof.Machine

/-- What can happen next. -/
inductive Event where
  /-- The core takes a step (40_instruction_cycle.md R122). -/
  | coreStep
  /-- The console input provider appends a byte (10_state.md R33). -/
  | input (b : Byte)
  /-- The canceller raises the request (10_state.md R35). -/
  | cancel
deriving DecidableEq, Repr

/-- One event. -/
def perform (e : Event) (s : State) : Answer :=
  match e with
  | .coreStep => step s
  | .input b => .next (s.supplyInput [b])
  | .cancel => .next s.requestCancel

/-- Events in order, stopping at the first fault or refusal. -/
def performAll : List Event → State → Answer
  | [], s => .next s
  | e :: es, s =>
    match perform e s with
    | .next s' => performAll es s'
    | .fault f => .fault f
    | .refused r => .refused r

end Sys2Proof.Machine
end

