-- ==== Sys2Proof/Machine/Reset.lean ====
section
/-!
DEFINITION. Reset with images (70_reset_and_hazards.md R241, R243): what the image loader leaves before the first
fetch. `State.reset` (Machine/State.lean) is this with no image.
-/

namespace Sys2Proof.Machine

/-- A loaded image (R243): where its first data Word goes, and its data Words. -/
structure Image where
  origin : Word
  words : List Word
deriving DecidableEq, Repr

/-- Two bytes of an image file as a Word, big-endian: the first byte is bits 15 to 8 (R243). -/
def bigEndian (hi lo : Byte) : Word := BitVec.ofNat 16 (hi.toNat * 256 + lo.toNat)

/-- The Words of the byte pairs of a file, in file order; a last byte with no partner is no Word (R243 stores Word `k`
only "while bytes 2k+2 and 2k+3 exist"). -/
def imageWords : List Byte → List Word
  | hi :: lo :: rest => bigEndian hi lo :: imageWords rest
  | _ => []

/-- An image from the bytes of its file: the origin, then the data Words; the origin itself is not stored (R243). A file
shorter than two bytes is no image: the loader's business (log entry 19). -/
def Image.ofBytes : List Byte → Option Image
  | hi :: lo :: rest => some { origin := bigEndian hi lo, words := imageWords rest }
  | _ => none

/-- Stores Words at rising addresses from `a`; Words beyond the last address are dropped (R243). -/
def Memory.loadWords : Memory → Nat → List Word → Memory
  | m, _, [] => m
  | m, a, w :: ws => if a < 65536 then (m.write a w).loadWords (a + 1) ws else m

/-- `load(image)` (R243). -/
def Memory.loadImage (m : Memory) (i : Image) : Memory := m.loadWords i.origin.toNat i.words

/-- `reset(IMAGES)` (R241): memory zero-filled, each image loaded in order, then registers, `pc`, `cond`, `run`,
`conout` and `cancel_req`. -/
def State.resetWith (images : List Image) : State := State.reset.setMem (images.foldl Memory.loadImage [])

end Sys2Proof.Machine
end

