-- ==== Sys2Proof/Safety.lean ====
section
/-!
DEFINITION. The terms the claims use: what counts as an ended run, a successful run and a sound state; what a memory read
answers and leaves, said without the operations that do it; and what an instruction may write (40_instruction_cycle.md
R130).
-/

namespace Sys2Proof.Machine

/-! Runs. -/

/-- A run has ended when `run` is HALTED, FAULTED or CANCELLED (40_instruction_cycle.md R128). -/
def State.ended (s : State) : Prop := s.run ≠ .running

/-- The normal end (40_instruction_cycle.md R128): "the run ends in HALTED". -/
def State.succeeded (s : State) : Prop := s.run = .halted

/-- `t` can follow `s` in a run of the core with its host (00_scope.md R10, R13). -/
def Follows (s t : State) : Prop := ∃ es : List Event, performAll es s = .next t

/-- A run from a reset with these images goes through `t`. -/
def ReachedFrom (images : List Image) (t : State) : Prop := Follows (State.resetWith images) t

/-! The invariant. -/

/-- What the fault record says of the state it stands in (60_exceptions.md R211 to R213): an IllegalOpcode record holds
`ir`, which is an RTI or a RES; an IllegalTrapVector record holds the vector of `ir`, which is a TRAP with an undefined
vector, and R7 equals `pc`. -/
def State.faultRecordSound (s : State) : Prop :=
  match s.run with
  | .running => True
  | .halted => True
  | .cancelled => True
  | .faulted .illegalOpcode info => info = s.ir ∧ (decode s.ir = .rti ∨ decode s.ir = .res)
  | .faulted .illegalTrapVector info =>
    ∃ v : BitVec 8, info = zext8 v ∧ definedVector v = false ∧ decode s.ir = .trapUndefined v ∧ s.reg 7 = s.pc

/-- The invariant of the machine: memory in its canonical form, and a sound fault record. -/
def State.sound (s : State) : Prop := s.mem.wf ∧ s.faultRecordSound

/-! What a read answers and leaves (20_memory.md R54 to R57). -/

/-- What a read of `a` answers: at KBSR, whether input is there; elsewhere the stored Word. -/
def State.readValue (s : State) (a : Word) : Word :=
  if a = config.kbsrAddr then if s.kbq = [] then 0x0000 else 0x8000 else s.word a

/-- The input queue after a read of `a`: a read of KBSR takes the head byte if there is one. -/
def State.queueAfterRead (s : State) (a : Word) : List Byte := if a = config.kbsrAddr then s.kbq.tail else s.kbq

/-- The Word stored at `x` after a read of `a`: a read of KBSR stores its answer in KBSR, and the byte it took in
KBDR. -/
def State.wordAfterRead (s : State) (a x : Word) : Word :=
  if a = config.kbsrAddr then
    if x = config.kbsrAddr then s.readValue a
    else if x = config.kbdrAddr then
      match s.kbq with
      | [] => s.word x
      | b :: _ => zext8 b
    else s.word x
  else s.word x

/-! Frames. -/

/-- Every general register but the listed ones is as before. -/
def SameRegsExcept (written : List Reg) (s t : State) : Prop := ∀ r, r ∉ written → t.reg r = s.reg r

/-- Every Word of memory is as before. -/
def SameWords (s t : State) : Prop := ∀ a, t.word a = s.word a

/-- Both console streams are as before. -/
def SameConsole (s t : State) : Prop := t.kbq = s.kbq ∧ t.conout = s.conout

/-- The run state, the instruction word and the cancellation request are as before. -/
def SameControl (s t : State) : Prop := t.run = s.run ∧ t.ir = s.ir ∧ t.cancelReq = s.cancelReq

/-- `t` is `s` with `v` in `dr` and the flag of `v`, and nothing else changed. -/
def WroteFlagged (dr : Reg) (v : Word) (s t : State) : Prop :=
  t.reg dr = v ∧ t.cond = condOf v ∧ SameRegsExcept [dr] s t ∧ t.pc = s.pc ∧ SameWords s t ∧ SameConsole s t ∧
    SameControl s t

/-- `t` is `s` after a load of `a` into `dr`: the Word read, its flag, what the read leaves, and nothing else changed. -/
def Loaded (dr : Reg) (a : Word) (s t : State) : Prop :=
  t.reg dr = s.readValue a ∧ t.cond = condOf (s.readValue a) ∧ SameRegsExcept [dr] s t ∧ t.pc = s.pc ∧
    (∀ x, t.word x = s.wordAfterRead a x) ∧ t.kbq = s.queueAfterRead a ∧ t.conout = s.conout ∧ SameControl s t

/-- `t` is `s` with only `pc` and the registers of `written` changed. -/
def Transferred (target : Word) (written : List Reg) (s t : State) : Prop :=
  t.pc = target ∧ SameRegsExcept written s t ∧ t.cond = s.cond ∧ SameWords s t ∧ SameConsole s t ∧ SameControl s t

/-! What an instruction may write (40_instruction_cycle.md R130). -/

/-- The general registers an instruction may write: DR; R7 for JSR, JSRR and every TRAP; R0 for GETC and IN. -/
def writtenRegs : Instr → List Reg
  | .br _ _ _ _ => []
  | .addReg dr _ _ => [dr]
  | .addImm dr _ _ => [dr]
  | .ld dr _ => [dr]
  | .st _ _ => []
  | .jsr _ => [7]
  | .jsrr _ => [7]
  | .andReg dr _ _ => [dr]
  | .andImm dr _ _ => [dr]
  | .ldr dr _ _ => [dr]
  | .str _ _ _ => []
  | .rti => []
  | .not dr _ => [dr]
  | .ldi dr _ => [dr]
  | .sti _ _ => []
  | .jmp _ => []
  | .res => []
  | .lea dr _ => [dr]
  | .trapGetc => [0, 7]
  | .trapOut => [7]
  | .trapPuts => [7]
  | .trapIn => [0, 7]
  | .trapPutsp => [7]
  | .trapHalt => [7]
  | .trapUndefined _ => [7]

/-- The register whose new value sets the condition flag, for a flag-setting operation (10_state.md R27). -/
def flagReg : Instr → Option Reg
  | .br _ _ _ _ => none
  | .addReg dr _ _ => some dr
  | .addImm dr _ _ => some dr
  | .ld dr _ => some dr
  | .st _ _ => none
  | .jsr _ => none
  | .jsrr _ => none
  | .andReg dr _ _ => some dr
  | .andImm dr _ _ => some dr
  | .ldr dr _ _ => some dr
  | .str _ _ _ => none
  | .rti => none
  | .not dr _ => some dr
  | .ldi dr _ => some dr
  | .sti _ _ => none
  | .jmp _ => none
  | .res => none
  | .lea dr _ => some dr
  | .trapGetc => some 0
  | .trapOut => none
  | .trapPuts => none
  | .trapIn => some 0
  | .trapPutsp => none
  | .trapHalt => none
  | .trapUndefined _ => none

/-- The address an instruction stores to: of ST and STR the effective address, of STI the pointer it reads. -/
def storeAddress : Instr → State → Option Word
  | .st _ off, s => some (s.pcRel9 off)
  | .str _ baseR off, s => some (s.baseRel6 baseR off)
  | .sti _ off, s => some (s.readValue (s.pcRel9 off))
  | _, _ => none

/-- The register an instruction stores. -/
def storedReg : Instr → Option Reg
  | .st sr _ => some sr
  | .str sr _ _ => some sr
  | .sti sr _ => some sr
  | _ => none

/-- The instructions whose execute phase reads memory, and so can poll the keyboard (20_memory.md R58). -/
def readsMemory : Instr → Bool
  | .ld _ _ => true
  | .ldi _ _ => true
  | .ldr _ _ _ => true
  | .sti _ _ => true
  | .trapPuts => true
  | .trapPutsp => true
  | _ => false

/-- The instructions that write to the console. -/
def writesConsole : Instr → Bool
  | .trapOut => true
  | .trapPuts => true
  | .trapIn => true
  | .trapPutsp => true
  | _ => false

/-- The instructions that write `pc` in their execute phase (10_state.md R24). -/
def writesPc : Instr → Bool
  | .br _ _ _ _ => true
  | .jmp _ => true
  | .jsr _ => true
  | .jsrr _ => true
  | _ => false

/-- The instructions that end the run (40_instruction_cycle.md R121). -/
def endsRun : Instr → Bool
  | .rti => true
  | .res => true
  | .trapHalt => true
  | .trapUndefined _ => true
  | _ => false

/-- TRAP, with whatever vector (44_trap.md R180). -/
def isTrap : Instr → Bool
  | .trapGetc => true
  | .trapOut => true
  | .trapPuts => true
  | .trapIn => true
  | .trapPutsp => true
  | .trapHalt => true
  | .trapUndefined _ => true
  | _ => false

end Sys2Proof.Machine
end

