-- ==== Sys2Proof/Certificates/Slice0/Obligations.lean ====
section
/-!
DEFINITION. The statements for the provers, from the numbered rules of spec/. "Decision D<n>" names a row of
spec/92_eei_decisions.md, the spec's own choice; "log entry <n>" a file notes/assumptions/<n>.md.
-/

open Sys2Proof Sys2Proof.Machine

/-! ## Encoding and decoding -/

/-- One Word of each of several rows, from 95_test_vectors.md section 2.3. The opcode numbers and field positions are the
spec's, from general knowledge (decisions D1, D2). -/
def Obligations.SampleWordsDecodeAsTheSpecSays : Prop :=
  decode 0x0E05 = .br true true true 5 ∧ decode 0x105A = .addReg 0 1 2 ∧ decode 0x1462 = .addImm 2 1 2 ∧
  decode 0x927F = .not 1 1 ∧ decode 0x4803 = .jsr 3 ∧ decode 0x46C5 = .jsrr 3 ∧ decode 0xB004 = .sti 0 4 ∧
  decode 0x7440 = .str 2 1 0 ∧ decode 0xFF25 = .trapHalt ∧ decode 0xF026 = .trapUndefined 0x26 ∧
  decode 0x8ABC = .rti ∧ decode 0xDFFF = .res

/-- The columns match and mask of the opcode table and the bits that are not ignored, as the numbers the spec gives: the
model computes them from its parameters (30_encoding.md sections 4 and 5; decisions D1, D2, D7; log entries 9, 12). -/
def Obligations.TableColumnsAreTheSpecsNumbers : Prop :=
  ∀ i : Instr, (tableRow i, usedBits i) =
    match i with
    | .br _ _ _ _ => ((0x0000, 0xF000), 0xFFFF)
    | .addReg _ _ _ => ((0x1000, 0xF020), 0xFFE7)
    | .addImm _ _ _ => ((0x1020, 0xF020), 0xFFFF)
    | .ld _ _ => ((0x2000, 0xF000), 0xFFFF)
    | .st _ _ => ((0x3000, 0xF000), 0xFFFF)
    | .jsr _ => ((0x4800, 0xF800), 0xFFFF)
    | .jsrr _ => ((0x4000, 0xF800), 0xF9C0)
    | .andReg _ _ _ => ((0x5000, 0xF020), 0xFFE7)
    | .andImm _ _ _ => ((0x5020, 0xF020), 0xFFFF)
    | .ldr _ _ _ => ((0x6000, 0xF000), 0xFFFF)
    | .str _ _ _ => ((0x7000, 0xF000), 0xFFFF)
    | .rti => ((0x8000, 0xF000), 0xF000)
    | .not _ _ => ((0x9000, 0xF000), 0xFFC0)
    | .ldi _ _ => ((0xA000, 0xF000), 0xFFFF)
    | .sti _ _ => ((0xB000, 0xF000), 0xFFFF)
    | .jmp _ => ((0xC000, 0xF000), 0xF1C0)
    | .res => ((0xD000, 0xF000), 0xF000)
    | .lea _ _ => ((0xE000, 0xF000), 0xFFFF)
    | .trapGetc => ((0xF020, 0xF0FF), 0xF0FF)
    | .trapOut => ((0xF021, 0xF0FF), 0xF0FF)
    | .trapPuts => ((0xF022, 0xF0FF), 0xF0FF)
    | .trapIn => ((0xF023, 0xF0FF), 0xF0FF)
    | .trapPutsp => ((0xF024, 0xF0FF), 0xF0FF)
    | .trapHalt => ((0xF025, 0xF0FF), 0xF0FF)
    | .trapUndefined _ => ((0xF000, 0xF000), 0xF0FF)

/-- Every well-formed instruction, with every operand at every value, is what the decoder reads in its Word
(30_encoding.md, formats and opcode map; decisions D1, D2). -/
def Obligations.DecodingAnEncodedInstructionGivesItBack : Prop :=
  ∀ i : Instr, i.wellFormed = true → decode (encode i) = i

/-- The decoder is total: every Word matches the row of the instruction it decodes to, and TRAP decodes to the fallback
row only when none of the six vectors is there (30_encoding.md section 4; decisions D1, D2). -/
def Obligations.EveryWordLiesInTheRowItDecodesTo : Prop :=
  ∀ w : Word, w &&& (tableRow (decode w)).2 = (tableRow (decode w)).1 ∧ (decode w).wellFormed = true

/-- A Word that matches a row other than the fallback row decodes to that row: no Word matches two of them
(30_encoding.md section 4: "The rows are disjoint except the last"; decisions D1, D2). -/
def Obligations.AWordInARowDecodesToThatRow : Prop :=
  ∀ (w : Word) (i : Instr), (∀ v, i ≠ .trapUndefined v) → w &&& (tableRow i).2 = (tableRow i).1 →
    tableRow (decode w) = tableRow i

/-- Two Words that differ only in ignored bits are the same instruction, and the Word the encoder writes agrees with
the Word read in every bit that is not ignored (30_encoding.md section 5; decision D7). -/
def Obligations.IgnoredBitsTakeNoPartInDecoding : Prop :=
  (∀ v w : Word, v &&& usedBits (decode v) = w &&& usedBits (decode v) → decode w = decode v) ∧
  ∀ w : Word, encode (decode w) &&& usedBits (decode w) = w &&& usedBits (decode w)

/-- R91, for each of the four widths: the value of the result, each of its bits, its signed value and range, and the
source's two examples. -/
def Obligations.SignExtensionFillsTheHigherBits : Prop :=
  (∀ n ∈ [5, 6, 9, 11], ∀ v : BitVec n,
    (sext n v).toNat = (if v.getLsbD (n - 1) then v.toNat + (65536 - 2 ^ n) else v.toNat) ∧
    (∀ k < 16, (sext n v).getLsbD k = if k < n then v.getLsbD k else v.getLsbD (n - 1)) ∧
    (sext n v).toInt = v.toInt ∧ -2 ^ (n - 1) ≤ (sext n v).toInt ∧ (sext n v).toInt ≤ 2 ^ (n - 1) - 1) ∧
  sext 5 0x1F = 0xFFFF ∧ sext 5 0x0F = 0x000F

/-! ## The step -/

/-- A RUNNING core with no cancellation request, away from KBSR, whose stored Word decodes to `i`, runs `i` on the state
the fetch leaves: `ir` is that Word, `pc` is one more (Word addition), nothing else has changed. A GETC or IN needs an
input byte (40_instruction_cycle.md, the step). -/
def Obligations.StepRunsTheInstructionAtPc : Prop :=
  ∀ (s : State) (i : Instr), s.run = .running → s.cancelReq = false → s.pc ≠ config.kbsrAddr →
    decode (s.word s.pc) = i → i.wellFormed = true → (takesInput i = true → s.kbq ≠ []) →
    step s = exec i { s with ir := s.word s.pc, pc := s.pc + 1 }

/-- The fetch at KBSR polls the keyboard: with no input the Word is 0x0000, a BR never taken; with a byte there it is
0x8000, an RTI, and the run is FAULTED (40_instruction_cycle.md, the fetch; decision D8). -/
def Obligations.FetchFromKbsrPollsTheKeyboard : Prop :=
  ∀ s : State, s.mem.wf → s.run = .running → s.cancelReq = false → s.pc = config.kbsrAddr →
    ∃ t, step s = .next t ∧ t.pc = s.pc + 1 ∧ t.ir = s.readValue s.pc ∧ SameRegsExcept [] s t ∧ t.cond = s.cond ∧
      t.conout = s.conout ∧ t.cancelReq = false ∧ t.kbq = s.kbq.tail ∧ (∀ x, t.word x = s.wordAfterRead s.pc x) ∧
      t.run = if s.kbq = [] then .running else .faulted .illegalOpcode 0x8000

/-- The cancellation request is sampled first: the run becomes CANCELLED and nothing else changes, whatever the
instruction at `pc` (60_exceptions.md, cancellation; decision D12). -/
def Obligations.CancellationIsSampledBeforeTheFetch : Prop :=
  ∀ s : State, s.run = .running → s.cancelReq = true → step s = .next { s with run := .cancelled }

/-- The core waits, in the state before the fetch, when the stored Word at `pc` is a GETC or IN and no byte is there
(40_instruction_cycle.md, blocking; decision D14). That the wait is a step to the same state is the model's choice, log
entry 5. -/
def Obligations.GetcAndInWaitForAByte : Prop :=
  ∀ s : State, s.run = .running → s.cancelReq = false → s.pc ≠ config.kbsrAddr → s.kbq = [] →
    (s.word s.pc &&& 0xF0FF = 0xF020 ∨ s.word s.pc &&& 0xF0FF = 0xF023) → step s = .next s

/-- A byte from the host lifts the wait: the next step runs the GETC or IN to its end, with that byte in R0
(40_instruction_cycle.md, blocking; decision D14). -/
def Obligations.AByteLiftsTheWait : Prop :=
  ∀ (s : State) (b : Byte), s.run = .running → s.cancelReq = false → s.awaitsInput = true →
    ∃ t, perform (.input b) s = .next (s.supplyInput [b]) ∧ step (s.supplyInput [b]) = .next t ∧
      t.reg 0 = zext8 b ∧ t.reg 7 = s.pc + 1 ∧ t.pc = s.pc + 1 ∧ t.kbq = [] ∧ t.run = .running

/-- With no byte there, GETC and IN have no result ("When it is empty it has no result", 20_memory.md, console
interface; decision D9). That their meanings then answer this fault is the model's choice, log entry 7; `step` waits
instead. -/
def Obligations.GetcAndInHaveNoResultWithoutAByte : Prop :=
  ∀ s : State, s.kbq = [] →
    exec .trapGetc s = .fault .inputQueueEmpty ∧ exec .trapIn s = .fault .inputQueueEmpty

/-- In an ended run the core does nothing (40_instruction_cycle.md, end of run; decision D12). That a step of an ended
run is a step to the same state is the model's choice, log entry 6. -/
def Obligations.AnEndedRunIsFrozen : Prop :=
  ∀ s : State, s.ended → step s = .next s

/-- A terminal run state is never left, whatever the core and the host go on to do, and what a postcondition reads stays
(40_instruction_cycle.md, run states; decision D12; log entry 6). -/
def Obligations.AnEndedRunStaysEnded : Prop :=
  ∀ s t : State, s.ended → Follows s t →
    t.run = s.run ∧ (∀ r, t.reg r = s.reg r) ∧ t.pc = s.pc ∧ t.cond = s.cond ∧ t.mem = s.mem ∧ t.ir = s.ir ∧
      t.conout = s.conout

/-- Every way out of RUNNING in one step: cancelled exactly when the request is there; halted exactly by HALT; faulted
exactly by RTI and RES, with `ir`, or by a TRAP with an undefined vector, with the vector; running after everything else
(40_instruction_cycle.md, run states; decisions D5, D6, D12; log entry 14). -/
def Obligations.RunLeavesRunningOnlyAsListed : Prop :=
  ∀ s t : State, s.run = .running → step s = .next t →
    (t.run = .cancelled ↔ s.cancelReq = true) ∧
    (s.cancelReq = false → s.awaitsInput = true → t.run = .running) ∧
    (s.cancelReq = false → s.awaitsInput = false →
      t.run =
        if decode s.fetch.ir = .trapHalt then .halted
        else if decode s.fetch.ir = .rti ∨ decode s.fetch.ir = .res then .faulted .illegalOpcode s.fetch.ir
        else if endsRun (decode s.fetch.ir) then .faulted .illegalTrapVector (zext8 (fieldAt s.fetch.ir 0 8))
        else .running)

/-- On a memory in canonical form every step answers a next state, and memory stays in canonical form: no step stops in
a fault or a refusal, so neither of the model's two fault names is ever met by a run (log entries 5, 6, 7 and 8;
44_trap.md, termination). -/
def Obligations.EveryStepHasANextState : Prop :=
  ∀ s : State, s.mem.wf → ∃ t, step s = .next t ∧ t.mem.wf

/-- Every step keeps the invariant: memory in canonical form, and a fault record that tells the truth of the state it
stands in (60_exceptions.md, the fault record; decision D23). -/
def Obligations.EveryStepKeepsTheMachineSound : Prop :=
  ∀ s t : State, s.sound → step s = .next t → t.sound

/-- From every sound state, whatever the core and the host do, the machine stays sound and does not stop
(00_scope.md, agents; 60_exceptions.md, the fault record; decision D23). That it does not stop is the model's: a wait and
an ended run are steps to the same state (log entries 5 and 6), a wait stands before the fault of GETC and IN with no
byte (log entry 7, decision D14), and the string walk ends (log entry 8; decisions D8, D14, D28). -/
def Obligations.SoundMachinesStaySoundAndGoOn : Prop :=
  ∀ s : State, s.sound → ∀ es : List Event, ∃ t, performAll es s = .next t ∧ t.sound

/-- A step of the core appends to the console output, takes bytes from the head of the input queue only, and leaves the
cancellation request alone (10_state.md, interface state; decisions D9, D10, D12). -/
def Obligations.ConsoleStreamsMoveForward : Prop :=
  ∀ s t : State, step s = .next t →
    (∃ out, t.conout = s.conout ++ out) ∧ (∃ taken, s.kbq = taken ++ t.kbq) ∧ t.cancelReq = s.cancelReq

/-! ## Reset -/

/-- R23, R26 and R29: registers, `pc` and `cond` after a reset, whatever the images. -/
def Obligations.ResetLeavesRegistersPcAndFlag : Prop :=
  ∀ images : List Image,
    (∀ r, (State.resetWith images).reg r = 0x0000) ∧ (State.resetWith images).pc = 0x3000 ∧
      (State.resetWith images).cond = .zero

/-- The reset sequence, step by step: with no image every Word is zero; one more image at the end of the list stores its
Words at `origin`, `origin + 1`, ... inside the address space over what was there, and nothing else; then registers,
`pc`, `cond`, `run`, `conout` and `cancel_req` (70_reset_and_hazards.md, the reset sequence and the image loading
contract). The image clause, no wrap past the last address and a later image over an earlier one among it, is decision
D15, the spec's own (91_not_in_source.md N19; log entry 4). -/
def Obligations.ResetZeroFillsAndLoadsImagesInOrder : Prop :=
  (∀ a, (State.resetWith []).word a = 0x0000) ∧
  (∀ (images : List Image) (i : Image) (a : Word),
    (State.resetWith (images ++ [i])).word a =
      if h : i.origin.toNat ≤ a.toNat ∧ a.toNat - i.origin.toNat < i.words.length
      then i.words[a.toNat - i.origin.toNat]'h.2 else (State.resetWith images).word a) ∧
  ∀ images : List Image,
    (∀ r, (State.resetWith images).reg r = 0x0000) ∧ (State.resetWith images).pc = 0x3000 ∧
      (State.resetWith images).cond = .zero ∧ (State.resetWith images).run = .running ∧
      (State.resetWith images).conout = [] ∧ (State.resetWith images).cancelReq = false

/-- The bytes of an image file, big-endian, give the origin and the Words; the source's example
(70_reset_and_hazards.md, the image loading contract; 90_conflicts.md C2; decision D15). -/
def Obligations.ImageFilesAreBigEndian : Prop :=
  (∀ (origin : Word) (words : List Word),
    Image.ofBytes ((origin :: words).flatMap fun w => [BitVec.ofNat 8 (w.toNat / 256), BitVec.ofNat 8 (w.toNat % 256)]) =
      some { origin := origin, words := words }) ∧
  Image.ofBytes [0x30, 0x00, 0x12, 0x34] = some { origin := 0x3000, words := [0x1234] } ∧
  (State.resetWith [{ origin := 0x3000, words := [0x1234] }]).word 0x3000 = 0x1234

/-- The machine is sound at every reset, the one with no image among them. -/
def Obligations.EveryResetIsSound : Prop :=
  State.reset.sound ∧ ∀ images : List Image, (State.resetWith images).sound

/-! ## The condition flag -/

/-- R126: `setcc` replaces the flag by that of the value and does nothing else; exactly one flag holds; and every
instruction that sets the flag sets it to that of the value it leaves in its destination register. -/
def Obligations.SetccSetsTheFlagOfTheValue : Prop :=
  (∀ (s : State) (v : Word),
    s.setcc v = { s with cond := if v = 0x0000 then .zero else if v.getLsbD 15 then .neg else .pos }) ∧
  ∀ (i : Instr) (s t : State) (r : Reg), flagReg i = some r → exec i s = .next t →
    t.cond = if t.reg r = 0x0000 then .zero else if (t.reg r).getLsbD 15 then .neg else .pos

/-- R27: ADD, AND, NOT, LD, LDI, LDR, LEA, GETC and IN set the flag from their destination register; no other
instruction writes it; no instruction but BR reads it. -/
def Obligations.OnlyFlagSettersWriteAndOnlyBrReadsTheFlag : Prop :=
  (∀ (i : Instr) (s t : State), exec i s = .next t →
    t.cond = match flagReg i with
      | some r => condOf (t.reg r)
      | none => s.cond) ∧
  ∀ (i : Instr) (s t : State) (c : Cond), (∀ n z p off, i ≠ .br n z p off) → exec i s = .next t →
    exec i { s with cond := c } =
      match flagReg i with
      | some _ => .next t
      | none => .next { t with cond := c }

/-- The test of BR is the AND of the mask with the one-hot flag; mask 000 is never taken, mask 111 always
(42_control_transfer.md, BR and its corner cases; 10_state.md, encoding of `cond`; decision D3). -/
def Obligations.BranchTestIsMaskAndFlag : Prop :=
  (∀ (n z p : Bool) (c : Cond),
    brTaken n z p c = true ↔ (BitVec.ofBool n ++ BitVec.ofBool z ++ BitVec.ofBool p) &&& c.mask ≠ 0#3) ∧
  ∀ c : Cond, brTaken false false false c = false ∧ brTaken true true true c = true

/-! ## Memory -/

/-- What a read answers and leaves, at KBSR and elsewhere (20_memory.md, the read primitive; decisions D9, D16). -/
def Obligations.ReadsPollOnlyAtKbsr : Prop :=
  ∀ (s : State) (a : Word), s.mem.wf →
    (s.memRead a).1 = s.readValue a ∧ (∀ x, (s.memRead a).2.word x = s.wordAfterRead a x) ∧
      (s.memRead a).2.kbq = s.queueAfterRead a ∧ SameRegsExcept [] s (s.memRead a).2 ∧ (s.memRead a).2.pc = s.pc ∧
      (s.memRead a).2.cond = s.cond ∧ (s.memRead a).2.conout = s.conout ∧ SameControl s (s.memRead a).2 ∧
      (a ≠ config.kbsrAddr → (s.memRead a).2 = s)

/-- A store writes one Word and nothing else, at the keyboard words as anywhere; what is stored at KBSR is never seen by
a read; what is stored at KBDR is seen until a KBSR read with input; an image stores there like a program (20_memory.md,
the write primitive). That the byte which then replaces it is zero-extended is decision D9, the spec's own, in the read
primitive (log entry 16). -/
def Obligations.StoresAreOrdinaryEverywhere : Prop :=
  (∀ (s : State) (a v : Word), s.mem.wf →
    (∀ x, (s.memWrite a v).word x = if x = a then v else s.word x) ∧ SameRegsExcept [] s (s.memWrite a v) ∧
      (s.memWrite a v).pc = s.pc ∧ (s.memWrite a v).cond = s.cond ∧ SameConsole s (s.memWrite a v) ∧
      SameControl s (s.memWrite a v)) ∧
  (∀ (s : State) (v : Word), s.mem.wf →
    (s.memWrite config.kbsrAddr v).memRead config.kbsrAddr = s.memRead config.kbsrAddr ∧
      ((s.memWrite config.kbdrAddr v).memRead config.kbdrAddr).1 = v ∧
      (((s.memWrite config.kbdrAddr v).memRead config.kbsrAddr).2.memRead config.kbdrAddr).1 =
        match s.kbq with
        | [] => v
        | b :: _ => BitVec.ofNat 16 b.toNat) ∧
  ∀ v : Word,
    (State.resetWith [{ origin := config.kbsrAddr, words := [v] }]).word config.kbsrAddr = v ∧
      (State.resetWith [{ origin := config.kbdrAddr, words := [v] }]).word config.kbdrAddr = v

/-- A store is seen by the very next fetch (20_memory.md, instruction-fetch coherence, which the spec derives). -/
def Obligations.AStoreIsSeenByTheNextFetch : Prop :=
  ∀ (i : Instr) (s t : State) (r : Reg) (a : Word), s.mem.wf → exec i s = .next t → storedReg i = some r →
    storeAddress i s = some a → t.pc = a → a ≠ config.kbsrAddr → t.fetch.ir = s.reg r

/-- A Word stored by ST or STI is what a later LD or LDI of the same place loads (43_load_store.md, the source's two
properties S5 and S6 of 95_test_vectors.md). `p` is where `pc` stands at the load. -/
def Obligations.LoadsGiveBackWhatStoresPut : Prop :=
  (∀ (s t u : State) (sr dr : Reg) (off off' : BitVec 9) (p : Word), s.mem.wf → s.pcRel9 off ≠ config.kbsrAddr →
    exec (.st sr off) s = .next t → (t.setPc p).pcRel9 off' = s.pcRel9 off →
    exec (.ld dr off') (t.setPc p) = .next u → u.reg dr = s.reg sr) ∧
  ∀ (s t u : State) (sr dr : Reg) (off off' : BitVec 9) (p : Word), s.mem.wf → s.pcRel9 off ≠ config.kbsrAddr →
    s.word (s.pcRel9 off) ≠ config.kbsrAddr → s.word (s.pcRel9 off) ≠ s.pcRel9 off →
    exec (.sti sr off) s = .next t → (t.setPc p).pcRel9 off' = s.pcRel9 off →
    exec (.ldi dr off') (t.setPc p) = .next u → u.reg dr = s.reg sr

/-! ## What every instruction leaves alone -/

/-- Only the registers of an instruction's row are written (40_instruction_cycle.md, what each instruction may change). -/
def Obligations.OnlyTheListedRegistersAreWritten : Prop :=
  ∀ (i : Instr) (s t : State), exec i s = .next t → SameRegsExcept (writtenRegs i) s t

/-- Only BR, JMP, JSR and JSRR write `pc`; `ir` and the cancellation request are written by none; `run` only by the
instructions that end the run (40_instruction_cycle.md, what each instruction may change). -/
def Obligations.OnlyTransfersWritePcAndOnlyEndsWriteRun : Prop :=
  ∀ (i : Instr) (s t : State), exec i s = .next t →
    (writesPc i = false → t.pc = s.pc) ∧ (endsRun i = false → t.run = s.run) ∧ t.ir = s.ir ∧ t.cancelReq = s.cancelReq

/-- An instruction changes no Word of memory but the one it stores to; the keyboard words can change besides only where
its execute phase reads memory (40_instruction_cycle.md, what each instruction may change; decision D8). -/
def Obligations.OnlyTheStoreAddressAndPollsChangeMemory : Prop :=
  ∀ (i : Instr) (s t : State), s.mem.wf → exec i s = .next t →
    ∀ x, storeAddress i s ≠ some x →
      (readsMemory i = true → x ≠ config.kbsrAddr ∧ x ≠ config.kbdrAddr) → t.word x = s.word x

/-- Only OUT, PUTS, IN and PUTSP write to the console; input bytes are taken only by GETC, IN and reads of memory
(40_instruction_cycle.md, what each instruction may change; decision D8). -/
def Obligations.OnlyConsoleRoutinesUseTheConsole : Prop :=
  ∀ (i : Instr) (s t : State), exec i s = .next t →
    (writesConsole i = false → t.conout = s.conout) ∧
      (takesInput i = false → readsMemory i = false → t.kbq = s.kbq)

/-- R181: no routine changes `pc`; R7 holds the return address; R1 to R6 are never touched; R0 and the flag change only
in GETC and IN. -/
def Obligations.TrapRoutinesChangeOnlyR0R7AndTheFlag : Prop :=
  ∀ (i : Instr) (s t : State), isTrap i = true → exec i s = .next t →
    t.pc = s.pc ∧ t.reg 7 = s.pc ∧ SameRegsExcept [0, 7] s t ∧
      (i ≠ .trapGetc → i ≠ .trapIn → t.reg 0 = s.reg 0 ∧ t.cond = s.cond)

/-! ## Operate instructions -/

/-- ADD, both forms: the Word sum (R140, R141; R145: the low 16 bits of the integer sum), its flag, nothing else. -/
def Obligations.AddWritesTheSumAndItsFlag : Prop :=
  (∀ (s : State) (dr sr1 sr2 : Reg), ∃ t, exec (.addReg dr sr1 sr2) s = .next t ∧
    WroteFlagged dr (BitVec.ofNat 16 ((s.reg sr1).toNat + (s.reg sr2).toNat)) s t) ∧
  ∀ (s : State) (dr sr1 : Reg) (imm : BitVec 5), ∃ t, exec (.addImm dr sr1 imm) s = .next t ∧
    WroteFlagged dr (BitVec.ofNat 16 ((s.reg sr1).toNat + (sext 5 imm).toNat)) s t

/-- AND, both forms: every bit is the AND of the sources' bits (R142, R143), its flag, nothing else. -/
def Obligations.AndWritesTheBitwiseAndAndItsFlag : Prop :=
  (∀ (s : State) (dr sr1 sr2 : Reg), ∃ t, exec (.andReg dr sr1 sr2) s = .next t ∧
    (∀ k, (t.reg dr).getLsbD k = ((s.reg sr1).getLsbD k && (s.reg sr2).getLsbD k)) ∧ WroteFlagged dr (t.reg dr) s t) ∧
  ∀ (s : State) (dr sr1 : Reg) (imm : BitVec 5), ∃ t, exec (.andImm dr sr1 imm) s = .next t ∧
    (∀ k, (t.reg dr).getLsbD k = ((s.reg sr1).getLsbD k && (sext 5 imm).getLsbD k)) ∧ WroteFlagged dr (t.reg dr) s t

/-- NOT: "v = 0xFFFF - x[SR]" (R144), its flag, nothing else. -/
def Obligations.NotWritesTheComplementAndItsFlag : Prop :=
  ∀ (s : State) (dr sr : Reg), ∃ t, exec (.not dr sr) s = .next t ∧ WroteFlagged dr (0xFFFF - s.reg sr) s t

/-! ## Control transfer -/

/-- BR (R150): taken exactly when a mask bit meets the flag; the target is relative to the incremented `pc`; nothing
else changes. -/
def Obligations.BrGoesToItsTargetWhenTaken : Prop :=
  ∀ (s : State) (n z p : Bool) (off : BitVec 9), ∃ t, exec (.br n z p off) s = .next t ∧
    Transferred (if (n = true ∧ s.cond = .neg) ∨ (z = true ∧ s.cond = .zero) ∨ (p = true ∧ s.cond = .pos)
      then s.pc + sext 9 off else s.pc) [] s t

/-- JMP (R152), RET among its forms: `pc` is the base register, R7 is not written. -/
def Obligations.JmpGoesToTheBaseRegister : Prop :=
  ∀ (s : State) (baseR : Reg), ∃ t, exec (.jmp baseR) s = .next t ∧ Transferred (s.reg baseR) [] s t

/-- JSR (R153): R7 is the return address, the target is relative to it. -/
def Obligations.JsrLinksAndGoesToItsTarget : Prop :=
  ∀ (s : State) (off : BitVec 11), ∃ t, exec (.jsr off) s = .next t ∧ t.reg 7 = s.pc ∧
    Transferred (s.pc + sext 11 off) [7] s t

/-- JSRR: R7 is the return address, the target is the base register; with baseR = 7 the target is the new R7, the return
address (42_control_transfer.md, JSRR; decision D13, log entry 13). -/
def Obligations.JsrrLinksBeforeItReadsTheBase : Prop :=
  ∀ (s : State) (baseR : Reg), ∃ t, exec (.jsrr baseR) s = .next t ∧ t.reg 7 = s.pc ∧
    Transferred (if baseR = 7 then s.pc else s.reg baseR) [7] s t

/-! ## Loads and stores -/

/-- LD and LDR (R160, R162): the Word read through the intercept, its flag, nothing else. What a read of KBSR answers and
leaves rests on decisions D9 and D16. -/
def Obligations.LdAndLdrLoadTheWordAndItsFlag : Prop :=
  (∀ (s : State) (dr : Reg) (off : BitVec 9), s.mem.wf → ∃ t, exec (.ld dr off) s = .next t ∧
    Loaded dr (s.pc + sext 9 off) s t) ∧
  ∀ (s : State) (dr baseR : Reg) (off : BitVec 6), s.mem.wf → ∃ t, exec (.ldr dr baseR off) s = .next t ∧
    Loaded dr (s.reg baseR + sext 6 off) s t

/-- LDI (R161): two reads, in order, both through the intercept. `u` is the state after the read of the pointer, which
changes only memory and the input queue. What a read of KBSR answers and leaves rests on decisions D9 and D16. -/
def Obligations.LdiLoadsThroughItsPointer : Prop :=
  ∀ (s : State) (dr : Reg) (off : BitVec 9), s.mem.wf → ∃ t u, exec (.ldi dr off) s = .next t ∧
    (∀ x, u.word x = s.wordAfterRead (s.pc + sext 9 off) x) ∧ u.kbq = s.queueAfterRead (s.pc + sext 9 off) ∧
    SameRegsExcept [] s u ∧ u.pc = s.pc ∧ u.cond = s.cond ∧ u.conout = s.conout ∧ SameControl s u ∧
    Loaded dr (s.readValue (s.pc + sext 9 off)) u t

/-- LEA (R163): the address, its flag, no memory access. -/
def Obligations.LeaWritesTheAddressAndItsFlag : Prop :=
  ∀ (s : State) (dr : Reg) (off : BitVec 9), ∃ t, exec (.lea dr off) s = .next t ∧
    WroteFlagged dr (s.pc + sext 9 off) s t

/-- ST and STR (R164, R166): the register goes to the address; no register and no flag changes. -/
def Obligations.StAndStrStoreTheRegister : Prop :=
  (∀ (s : State) (sr : Reg) (off : BitVec 9), s.mem.wf → ∃ t, exec (.st sr off) s = .next t ∧
    (∀ x, t.word x = if x = s.pc + sext 9 off then s.reg sr else s.word x) ∧ SameRegsExcept [] s t ∧ t.pc = s.pc ∧
    t.cond = s.cond ∧ SameConsole s t ∧ SameControl s t) ∧
  ∀ (s : State) (sr baseR : Reg) (off : BitVec 6), s.mem.wf → ∃ t, exec (.str sr baseR off) s = .next t ∧
    (∀ x, t.word x = if x = s.reg baseR + sext 6 off then s.reg sr else s.word x) ∧ SameRegsExcept [] s t ∧
    t.pc = s.pc ∧ t.cond = s.cond ∧ SameConsole s t ∧ SameControl s t

/-- STI (R165): the pointer is read, through the intercept, and then the register goes where it points.
What a read of KBSR answers and leaves rests on decisions D9 and D16. -/
def Obligations.StiStoresThroughItsPointer : Prop :=
  ∀ (s : State) (sr : Reg) (off : BitVec 9), s.mem.wf → ∃ t, exec (.sti sr off) s = .next t ∧
    (∀ x, t.word x =
      if x = s.readValue (s.pc + sext 9 off) then s.reg sr else s.wordAfterRead (s.pc + sext 9 off) x) ∧
    t.kbq = s.queueAfterRead (s.pc + sext 9 off) ∧ SameRegsExcept [] s t ∧ t.pc = s.pc ∧ t.cond = s.cond ∧
    t.conout = s.conout ∧ SameControl s t

/-! ## Traps -/

/-- GETC with a byte there: R7 is the return address, R0 the byte zero-extended, the flag ZERO or POS and never NEG; the
byte leaves the queue; no output (44_trap.md, GETC; decisions D9, D20). -/
def Obligations.GetcTakesAByteIntoR0 : Prop :=
  ∀ (s : State) (b : Byte) (q : List Byte), s.kbq = b :: q → ∃ t, exec .trapGetc s = .next t ∧
    t.reg 7 = s.pc ∧ t.reg 0 = BitVec.ofNat 16 b.toNat ∧ t.cond = (if b = 0 then .zero else .pos) ∧ t.kbq = q ∧
    t.conout = s.conout ∧ SameRegsExcept [0, 7] s t ∧ t.pc = s.pc ∧ SameWords s t ∧ SameControl s t

/-- IN with a byte there: as GETC, and the output is the prompt, the echo and one flush; the prompt is the parameter
`IN_PROMPT` (44_trap.md, IN; decisions D9, D11; log entry 11). -/
def Obligations.InPromptsTakesAndEchoesAByte : Prop :=
  ∀ (s : State) (b : Byte) (q : List Byte), s.kbq = b :: q → ∃ t, exec .trapIn s = .next t ∧
    t.reg 7 = s.pc ∧ t.reg 0 = BitVec.ofNat 16 b.toNat ∧ t.cond = (if b = 0 then .zero else .pos) ∧ t.kbq = q ∧
    t.conout = s.conout ++ config.inPrompt.map .byte ++ [.byte b, .flush] ∧ SameRegsExcept [0, 7] s t ∧
    t.pc = s.pc ∧ SameWords s t ∧ SameControl s t

/-- OUT: the low byte of R0, then a flush; R7 is the return address; nothing else (44_trap.md, OUT; decision D21). -/
def Obligations.OutWritesTheLowByteOfR0 : Prop :=
  ∀ s : State, ∃ t, exec .trapOut s = .next t ∧
    t.conout = s.conout ++ [.byte (BitVec.ofNat 8 ((s.reg 0).toNat % 256)), .flush] ∧ t.reg 7 = s.pc ∧
    SameRegsExcept [7] s t ∧ t.cond = s.cond ∧ t.pc = s.pc ∧ SameWords s t ∧ t.kbq = s.kbq ∧ SameControl s t

/-- PUTS of a string that ends in a zero Word before KBSR: the low byte of each Word, then a flush; R0 is not changed
(44_trap.md, PUTS; decisions D21, D28). Addresses wrap. -/
def Obligations.PutsWritesTheLowByteOfEachWord : Prop :=
  ∀ (s : State) (ws : List Word), s.mem.wf → (∀ w ∈ ws, w ≠ 0x0000) →
    (∀ (k : Nat) (h : k < ws.length), s.word (s.reg 0 + BitVec.ofNat 16 k) = ws[k]) →
    s.word (s.reg 0 + BitVec.ofNat 16 ws.length) = 0x0000 →
    (∀ k ≤ ws.length, s.reg 0 + BitVec.ofNat 16 k ≠ config.kbsrAddr) →
    ∃ t, exec .trapPuts s = .next t ∧
      t.conout = s.conout ++ ws.map (fun w => .byte (BitVec.ofNat 8 (w.toNat % 256))) ++ [.flush] ∧
      t.reg 7 = s.pc ∧ SameRegsExcept [7] s t ∧ t.cond = s.cond ∧ t.pc = s.pc ∧ SameWords s t ∧ t.kbq = s.kbq ∧
      SameControl s t

/-- PUTSP of a string that ends in a zero Word before KBSR: of each Word the low byte always, then the high byte if it is
not zero; then a flush (44_trap.md, PUTSP; decisions D22, D28). -/
def Obligations.PutspWritesBothBytesOfEachWord : Prop :=
  ∀ (s : State) (ws : List Word), s.mem.wf → (∀ w ∈ ws, w ≠ 0x0000) →
    (∀ (k : Nat) (h : k < ws.length), s.word (s.reg 0 + BitVec.ofNat 16 k) = ws[k]) →
    s.word (s.reg 0 + BitVec.ofNat 16 ws.length) = 0x0000 →
    (∀ k ≤ ws.length, s.reg 0 + BitVec.ofNat 16 k ≠ config.kbsrAddr) →
    ∃ t, exec .trapPutsp s = .next t ∧
      t.conout = s.conout ++ ws.flatMap (fun w =>
        .byte (BitVec.ofNat 8 (w.toNat % 256)) ::
          if w.toNat / 256 = 0 then [] else [.byte (BitVec.ofNat 8 (w.toNat / 256))]) ++ [.flush] ∧
      t.reg 7 = s.pc ∧ SameRegsExcept [7] s t ∧ t.cond = s.cond ∧ t.pc = s.pc ∧ SameWords s t ∧ t.kbq = s.kbq ∧
      SameControl s t

/-- PUTS and PUTSP end on every memory in canonical form, whatever the string: the walk comes to a zero Word or to a KBSR
read that finds no input. Only the two keyboard words can change besides R7 and the console (44_trap.md, termination,
which the spec derives from decisions D8, D14 and D28; log entry 8). -/
def Obligations.StringRoutinesAlwaysEnd : Prop :=
  ∀ (s : State) (i : Instr), s.mem.wf → i = .trapPuts ∨ i = .trapPutsp → ∃ t, exec i s = .next t ∧
    (∃ bytes : List Byte, t.conout = s.conout ++ bytes.map .byte ++ [.flush]) ∧
    (∃ taken, s.kbq = taken ++ t.kbq) ∧ t.reg 7 = s.pc ∧ SameRegsExcept [7] s t ∧ t.cond = s.cond ∧ t.pc = s.pc ∧
    SameControl s t ∧ ∀ x, x ≠ config.kbsrAddr → x ≠ config.kbdrAddr → t.word x = s.word x

/-- HALT: the run is HALTED, R7 the return address, nothing else, no output (44_trap.md, HALT; decision D29). -/
def Obligations.HaltEndsTheRun : Prop :=
  ∀ s : State, ∃ t, exec .trapHalt s = .next t ∧ t.run = .halted ∧ t.reg 7 = s.pc ∧ SameRegsExcept [7] s t ∧
    t.cond = s.cond ∧ t.pc = s.pc ∧ SameWords s t ∧ SameConsole s t ∧ t.ir = s.ir ∧ t.cancelReq = s.cancelReq

/-- TRAP with an undefined vector: R7 first, then the fault IllegalTrapVector with the vector; nothing else
(44_trap.md, undefined vectors; 60_exceptions.md, synchronous faults; decisions D6, D23; log entry 14). -/
def Obligations.UndefinedTrapVectorsFault : Prop :=
  ∀ (s : State) (v : BitVec 8), v.toNat < 0x20 ∨ 0x25 < v.toNat →
    ∃ t, exec (.trapUndefined v) s = .next t ∧ t.run = .faulted .illegalTrapVector (BitVec.ofNat 16 v.toNat) ∧
      t.reg 7 = s.pc ∧ SameRegsExcept [7] s t ∧ t.cond = s.cond ∧ t.pc = s.pc ∧ SameWords s t ∧ SameConsole s t ∧
      t.ir = s.ir ∧ t.cancelReq = s.cancelReq

/-- RTI and RES: the fault IllegalOpcode with the instruction word; nothing else, R7 included
(45_undefined_opcodes.md; 60_exceptions.md, synchronous faults; decisions D5, D23; log entry 14). -/
def Obligations.RtiAndResFault : Prop :=
  ∀ (s : State) (i : Instr), i = .rti ∨ i = .res →
    ∃ t, exec i s = .next t ∧ t.run = .faulted .illegalOpcode s.ir ∧ SameRegsExcept [] s t ∧ t.cond = s.cond ∧
      t.pc = s.pc ∧ SameWords s t ∧ SameConsole s t ∧ t.ir = s.ir ∧ t.cancelReq = s.cancelReq
end

