-- ==== Sys2Proof/Laws/Decode.lean ====
section
/-!
SUPPORT. Fields of a Word put together from fields: what is placed at a bit range is read back from that range and from
no other (30_encoding.md R82 to R92).
-/

namespace Sys2Proof

open Machine (config)

/-! Where the fields stand. -/

@[simp] theorem places_drSr : places.drSr = 9 := rfl
@[simp] theorem places_sr1BaseR : places.sr1BaseR = 6 := rfl
@[simp] theorem places_sr2 : places.sr2 = 0 := rfl
@[simp] theorem places_aluMode : places.aluMode = 5 := rfl
@[simp] theorem places_jsrMode : places.jsrMode = 11 := rfl
@[simp] theorem places_n : places.n = 11 := rfl
@[simp] theorem places_z : places.z = 10 := rfl
@[simp] theorem places_p : places.p = 9 := rfl
@[simp] theorem places_imm5 : places.imm5 = 0 := rfl
@[simp] theorem places_offset6 : places.offset6 = 0 := rfl
@[simp] theorem places_pcOffset9 : places.pcOffset9 = 0 := rfl
@[simp] theorem places_pcOffset11 : places.pcOffset11 = 0 := rfl

/-! Fields of placed fields. -/

@[simp] theorem fieldAt_or (v w : Word) (lo n : Nat) : fieldAt (v ||| w) lo n = fieldAt v lo n ||| fieldAt w lo n := by
  ext i hi
  simp [fieldAt]

@[simp] theorem bitAt_or (v w : Word) (i : Nat) : bitAt (v ||| w) i = (bitAt v i || bitAt w i) := by
  simp [bitAt]

/-- What a field reads of a placed field, bit by bit. -/
theorem getElem_fieldAt_place {m : Nat} (lo lo' n : Nat) (v : BitVec m) (i : Nat) (hi : i < n) :
    (fieldAt (place lo' v) lo n)[i] = (decide (lo + i < 16) && decide (lo' ≤ lo + i) && v.getLsbD (lo + i - lo')) := by
  simp only [fieldAt, place, BitVec.getElem_extractLsb', BitVec.getLsbD_shiftLeft, BitVec.getLsbD_setWidth]
  by_cases h : lo' ≤ lo + i <;> by_cases h2 : lo + i < 16 <;> simp [h, h2]
  simp [show ¬ lo + i < lo' by omega, show lo + i - lo' < 16 by omega]

/-- A field placed inside the Word reads back as it was. -/
theorem fieldAt_place {n lo : Nat} (v : BitVec n) (h : lo + n ≤ 16) : fieldAt (place lo v) lo n = v := by
  ext i hi
  rw [getElem_fieldAt_place]
  have : lo + i < 16 := by omega
  simp [this, BitVec.getLsbD_eq_getElem hi]

/-- A field placed elsewhere reads as zero. -/
theorem fieldAt_place_of_disjoint {m : Nat} {lo lo' n : Nat} (v : BitVec m) (h : lo + n ≤ lo' ∨ lo' + m ≤ lo) :
    fieldAt (place lo' v) lo n = 0#n := by
  ext i hi
  rw [getElem_fieldAt_place]
  rcases h with h | h
  · simp [show ¬ lo' ≤ lo + i by omega]
  · simp [BitVec.getLsbD_of_ge v (lo + i - lo') (by omega)]

/-- One bit of a placed field. -/
theorem bitAt_place {m : Nat} (lo i : Nat) (v : BitVec m) :
    bitAt (place lo v) i = (decide (i < 16) && decide (lo ≤ i) && v.getLsbD (i - lo)) := by
  simp only [bitAt, place, BitVec.getLsbD_shiftLeft, BitVec.getLsbD_setWidth]
  by_cases h : lo ≤ i <;> by_cases h2 : i < 16 <;> simp [h, h2]
  simp [show ¬ i < lo by omega, show i - lo < 16 by omega]

/-- A mask keeps its field and nothing else. -/
theorem and_fieldMask (w : Word) (lo n : Nat) : w &&& fieldMask lo n = place lo (fieldAt w lo n) := by
  ext i hi
  simp only [fieldMask, place, fieldAt, BitVec.getElem_and, BitVec.getElem_shiftLeft]
  by_cases h : i < lo
  · simp [h]
  · simp [h, show lo + (i - lo) = i by omega, BitVec.getLsbD_eq_getElem hi, Bool.and_comm]

/-- A register index survives its field. -/
@[simp] theorem toFin_regField (r : Reg) : (regField r).toFin = r := rfl

/-- Each opcode's number is its place in the opcode map. -/
theorem opcodeMap_opcodeNumber (o : Opcode) : config.opcodeMap.get (opcodeNumber o).toFin = o := by
  cases o <;> decide

/-- Each place of the opcode map has that place as its number. -/
theorem opcodeNumber_opcodeMap (n : BitVec 4) : opcodeNumber (config.opcodeMap.get n.toFin) = n := by
  revert n
  decide

end Sys2Proof
end

