-- ==== Sys2Proof/Laws/Memory.lean ====
section
/-!
SUPPORT. Memory as data: reading after writing, the canonical form that every operation keeps, and that two memories in
canonical form that read alike are equal.
-/

namespace Sys2Proof.Machine

/-- Addresses strictly rising: the half of the canonical form that reading after writing needs. -/
abbrev Memory.rising (m : Memory) : Prop := m.Pairwise (fun c d => c.1 < d.1)

theorem Memory.rising_of_wf {m : Memory} (h : m.wf) : m.rising := h.1

/-- An address below every listed one reads as an unlisted address. -/
theorem Memory.read_below {m : Memory} {a : Nat} (h : ∀ c ∈ m, a < c.1) : m.read a = Memory.unlisted := by
  induction m with
  | nil => rfl
  | cons c m ih =>
    have hc := h c (by simp)
    have hm := ih fun d hd => h d (by simp [hd])
    simp [Memory.read, hm]
    omega

/-- Read after write: the address written reads as the value written, every other address as before. -/
theorem Memory.read_write {m : Memory} (h : m.rising) (a x : Nat) (v : Word) :
    (m.write a v).read x = if x = a then v else m.read x := by
  induction m with
  | nil => by_cases hv : v = Memory.unlisted <;> simp [Memory.write, Memory.read, hv]
  | cons c m ih =>
    obtain ⟨b, w⟩ := c
    have hb : ∀ d ∈ m, b < d.1 := (List.pairwise_cons.mp h).1
    have ih := ih (List.pairwise_cons.mp h).2
    have below : ∀ y, y ≤ b → Memory.read m y = Memory.unlisted := fun y hy =>
      Memory.read_below fun d hd => Nat.lt_of_le_of_lt hy (hb d hd)
    by_cases hab : a < b
    · by_cases hv : v = Memory.unlisted
      · by_cases hx : x = a
        · have := below a (by omega)
          simp [Memory.write, Memory.read, hab, hv, hx, this]
          omega
        · simp [Memory.write, Memory.read, hab, hv, hx]
      · by_cases hx : x = a <;> simp [Memory.write, Memory.read, hab, hv, hx]
    · by_cases hae : a = b
      · subst hae
        by_cases hv : v = Memory.unlisted
        · by_cases hx : x = a
          · simp [Memory.write, hv, hx, below a (le_refl a)]
          · simp [Memory.write, Memory.read, hv, hx]
        · by_cases hx : x = a <;> simp [Memory.write, Memory.read, hv, hx]
      · by_cases hx : x = b
        · subst hx
          simp [Memory.write, Memory.read, hab, hae]
          omega
        · simp [Memory.write, Memory.read, hab, hae, hx, ih]

/-- What a write may list: the cell written, if it is to be listed, and what was listed. -/
theorem Memory.mem_write {m : Memory} {a : Nat} {v : Word} {c : Cell} (h : c ∈ m.write a v) :
    (c = (a, v) ∧ v ≠ Memory.unlisted) ∨ c ∈ m := by
  induction m with
  | nil =>
    by_cases hv : v = Memory.unlisted <;> simp [Memory.write, hv] at h
    exact .inl ⟨h, hv⟩
  | cons d m ih =>
    obtain ⟨b, w⟩ := d
    simp only [Memory.write] at h
    split at h
    · split at h
      · exact .inr h
      · rcases List.mem_cons.mp h with h | h
        · exact .inl ⟨h, ‹_›⟩
        · exact .inr h
    · split at h
      · split at h
        · exact .inr (List.mem_cons_of_mem _ h)
        · rcases List.mem_cons.mp h with h | h
          · exact .inl ⟨h, ‹_›⟩
          · exact .inr (List.mem_cons_of_mem _ h)
      · rcases List.mem_cons.mp h with h | h
        · exact .inr (by simp [h])
        · exact (ih h).imp_right (List.mem_cons_of_mem _)

theorem Memory.rising_write {m : Memory} (h : m.rising) (a : Nat) (v : Word) : (m.write a v).rising := by
  induction m with
  | nil => by_cases hv : v = Memory.unlisted <;> simp [Memory.rising, Memory.write, hv]
  | cons c m ih =>
    obtain ⟨b, w⟩ := c
    obtain ⟨hb, hm⟩ := List.pairwise_cons.mp h
    simp only [Memory.rising, Memory.write]
    split
    · split
      · exact h
      · refine List.pairwise_cons.mpr ⟨fun d hd => ?_, h⟩
        rcases List.mem_cons.mp hd with hd | hd
        · simp_all
        · have := hb d hd; simp_all; omega
    · split
      · split
        · exact hm
        · exact List.pairwise_cons.mpr ⟨fun d hd => by have := hb d hd; simp_all, hm⟩
      · refine List.pairwise_cons.mpr ⟨fun d hd => ?_, ih hm⟩
        rcases Memory.mem_write hd with ⟨rfl, -⟩ | hd
        · simp; omega
        · exact hb d hd

/-- A write keeps the canonical form. -/
theorem Memory.wf_write {m : Memory} (h : m.wf) {a : Nat} (ha : a < 65536) (v : Word) : (m.write a v).wf := by
  refine ⟨Memory.rising_write h.1 a v, fun c hc => ?_⟩
  rcases Memory.mem_write hc with ⟨rfl, hv⟩ | hc
  · exact ⟨ha, hv⟩
  · exact h.2 c hc

/-- A store at an address Word keeps the canonical form. -/
theorem Memory.wf_writeWord {m : Memory} (h : m.wf) (a v : Word) : (m.write a.toNat v).wf :=
  Memory.wf_write h a.isLt v

theorem Memory.wf_nil : Memory.wf [] := ⟨List.Pairwise.nil, by simp⟩

/-- A listed address reads as what it holds. -/
theorem Memory.read_of_mem {m : Memory} (h : m.rising) {c : Cell} (hc : c ∈ m) : m.read c.1 = c.2 := by
  induction m with
  | nil => simp at hc
  | cons d m ih =>
    obtain ⟨hd, hm⟩ := List.pairwise_cons.mp h
    rcases List.mem_cons.mp hc with rfl | hc
    · simp [Memory.read]
    · have := hd c hc
      simp only [Memory.read, ih hm hc]
      rw [if_neg (by omega)]

/-- What does not read as an unlisted address is listed. -/
theorem Memory.mem_of_read {m : Memory} {a : Nat} (h : m.read a ≠ Memory.unlisted) : (a, m.read a) ∈ m := by
  induction m with
  | nil => exact absurd rfl h
  | cons d m ih =>
    obtain ⟨b, w⟩ := d
    by_cases hab : a = b
    · simp [Memory.read, hab]
    · simp only [Memory.read, if_neg hab] at h ⊢
      exact List.mem_cons_of_mem _ (ih h)

/-- Two memories in canonical form that read alike at every address are equal. -/
theorem Memory.ext_of_read {m n : Memory} (hm : m.wf) (hn : n.wf) (h : ∀ a, m.read a = n.read a) : m = n := by
  have sub : ∀ {m n : Memory}, m.wf → (∀ a, m.read a = n.read a) → m ⊆ n := fun hm h c hc => by
    have hg := Memory.read_of_mem hm.1 hc
    have := Memory.mem_of_read (a := c.1) (h c.1 ▸ hg ▸ (hm.2 c hc).2)
    rwa [← h c.1, hg] at this
  have nodup : ∀ {m : Memory}, m.rising → m.Nodup := fun h =>
    h.imp fun {c d} hcd hne => by simp [hne] at hcd
  have perm : m.Perm n :=
    (List.perm_ext_iff_of_nodup (nodup hm.1) (nodup hn.1)).mpr fun c =>
      ⟨fun hc => sub hm h hc, fun hc => sub hn (fun a => (h a).symm) hc⟩
  exact perm.eq_of_pairwise (fun _ _ _ _ h h' => absurd h (by omega)) hm.1 hn.1

/-- The last of two writes to one address is the one that counts. -/
theorem Memory.write_write {m : Memory} (h : m.wf) {a : Nat} (ha : a < 65536) (v w : Word) :
    (m.write a v).write a w = m.write a w :=
  Memory.ext_of_read (Memory.wf_write (Memory.wf_write h ha v) ha w) (Memory.wf_write h ha w) fun x => by
    rw [Memory.read_write (Memory.rising_write h.1 a v), Memory.read_write h.1, Memory.read_write h.1]
    split <;> simp_all

end Sys2Proof.Machine
end

