-- ==== Sys2Proof/Laws/State.lean ====
section
/-!
SUPPORT. One lemma per field per update: no later proof unfolds a record update.
-/

namespace Sys2Proof.Machine

/-- A register write is seen by a read of that register and of no other (10_state.md R21, R22). -/
@[simp] theorem State.reg_setReg (s : State) (r q : Reg) (v : Word) :
    (s.setReg r v).reg q = if q = r then v else s.reg q := by
  simp only [State.reg, State.setReg, Vector.get_eq_getElem, Vector.getElem_set, Fin.ext_iff, eq_comm]

/-! `State.setPc` -/

@[simp] theorem State.reg_setPc (s : State) (v : Word) (q : Reg) : (s.setPc v).reg q = s.reg q := rfl
@[simp] theorem State.pc_setPc (s : State) (v : Word) : (s.setPc v).pc = v := rfl
@[simp] theorem State.cond_setPc (s : State) (v : Word) : (s.setPc v).cond = s.cond := rfl
@[simp] theorem State.mem_setPc (s : State) (v : Word) : (s.setPc v).mem = s.mem := rfl
@[simp] theorem State.run_setPc (s : State) (v : Word) : (s.setPc v).run = s.run := rfl
@[simp] theorem State.ir_setPc (s : State) (v : Word) : (s.setPc v).ir = s.ir := rfl
@[simp] theorem State.kbq_setPc (s : State) (v : Word) : (s.setPc v).kbq = s.kbq := rfl
@[simp] theorem State.conout_setPc (s : State) (v : Word) : (s.setPc v).conout = s.conout := rfl
@[simp] theorem State.cancelReq_setPc (s : State) (v : Word) : (s.setPc v).cancelReq = s.cancelReq := rfl
@[simp] theorem State.word_setPc (s : State) (v : Word) (a : Word) : (s.setPc v).word a = s.word a := rfl

/-! `State.setCond` -/

@[simp] theorem State.reg_setCond (s : State) (v : Cond) (q : Reg) : (s.setCond v).reg q = s.reg q := rfl
@[simp] theorem State.pc_setCond (s : State) (v : Cond) : (s.setCond v).pc = s.pc := rfl
@[simp] theorem State.cond_setCond (s : State) (v : Cond) : (s.setCond v).cond = v := rfl
@[simp] theorem State.mem_setCond (s : State) (v : Cond) : (s.setCond v).mem = s.mem := rfl
@[simp] theorem State.run_setCond (s : State) (v : Cond) : (s.setCond v).run = s.run := rfl
@[simp] theorem State.ir_setCond (s : State) (v : Cond) : (s.setCond v).ir = s.ir := rfl
@[simp] theorem State.kbq_setCond (s : State) (v : Cond) : (s.setCond v).kbq = s.kbq := rfl
@[simp] theorem State.conout_setCond (s : State) (v : Cond) : (s.setCond v).conout = s.conout := rfl
@[simp] theorem State.cancelReq_setCond (s : State) (v : Cond) : (s.setCond v).cancelReq = s.cancelReq := rfl
@[simp] theorem State.word_setCond (s : State) (v : Cond) (a : Word) : (s.setCond v).word a = s.word a := rfl

/-! `State.setMem` -/

@[simp] theorem State.reg_setMem (s : State) (v : Memory) (q : Reg) : (s.setMem v).reg q = s.reg q := rfl
@[simp] theorem State.pc_setMem (s : State) (v : Memory) : (s.setMem v).pc = s.pc := rfl
@[simp] theorem State.cond_setMem (s : State) (v : Memory) : (s.setMem v).cond = s.cond := rfl
@[simp] theorem State.mem_setMem (s : State) (v : Memory) : (s.setMem v).mem = v := rfl
@[simp] theorem State.run_setMem (s : State) (v : Memory) : (s.setMem v).run = s.run := rfl
@[simp] theorem State.ir_setMem (s : State) (v : Memory) : (s.setMem v).ir = s.ir := rfl
@[simp] theorem State.kbq_setMem (s : State) (v : Memory) : (s.setMem v).kbq = s.kbq := rfl
@[simp] theorem State.conout_setMem (s : State) (v : Memory) : (s.setMem v).conout = s.conout := rfl
@[simp] theorem State.cancelReq_setMem (s : State) (v : Memory) : (s.setMem v).cancelReq = s.cancelReq := rfl
@[simp] theorem State.word_setMem (s : State) (v : Memory) (a : Word) : (s.setMem v).word a = v.read a.toNat := rfl

/-! `State.setRun` -/

@[simp] theorem State.reg_setRun (s : State) (v : RunState) (q : Reg) : (s.setRun v).reg q = s.reg q := rfl
@[simp] theorem State.pc_setRun (s : State) (v : RunState) : (s.setRun v).pc = s.pc := rfl
@[simp] theorem State.cond_setRun (s : State) (v : RunState) : (s.setRun v).cond = s.cond := rfl
@[simp] theorem State.mem_setRun (s : State) (v : RunState) : (s.setRun v).mem = s.mem := rfl
@[simp] theorem State.run_setRun (s : State) (v : RunState) : (s.setRun v).run = v := rfl
@[simp] theorem State.ir_setRun (s : State) (v : RunState) : (s.setRun v).ir = s.ir := rfl
@[simp] theorem State.kbq_setRun (s : State) (v : RunState) : (s.setRun v).kbq = s.kbq := rfl
@[simp] theorem State.conout_setRun (s : State) (v : RunState) : (s.setRun v).conout = s.conout := rfl
@[simp] theorem State.cancelReq_setRun (s : State) (v : RunState) : (s.setRun v).cancelReq = s.cancelReq := rfl
@[simp] theorem State.word_setRun (s : State) (v : RunState) (a : Word) : (s.setRun v).word a = s.word a := rfl

/-! `State.setIr` -/

@[simp] theorem State.reg_setIr (s : State) (v : Word) (q : Reg) : (s.setIr v).reg q = s.reg q := rfl
@[simp] theorem State.pc_setIr (s : State) (v : Word) : (s.setIr v).pc = s.pc := rfl
@[simp] theorem State.cond_setIr (s : State) (v : Word) : (s.setIr v).cond = s.cond := rfl
@[simp] theorem State.mem_setIr (s : State) (v : Word) : (s.setIr v).mem = s.mem := rfl
@[simp] theorem State.run_setIr (s : State) (v : Word) : (s.setIr v).run = s.run := rfl
@[simp] theorem State.ir_setIr (s : State) (v : Word) : (s.setIr v).ir = v := rfl
@[simp] theorem State.kbq_setIr (s : State) (v : Word) : (s.setIr v).kbq = s.kbq := rfl
@[simp] theorem State.conout_setIr (s : State) (v : Word) : (s.setIr v).conout = s.conout := rfl
@[simp] theorem State.cancelReq_setIr (s : State) (v : Word) : (s.setIr v).cancelReq = s.cancelReq := rfl
@[simp] theorem State.word_setIr (s : State) (v : Word) (a : Word) : (s.setIr v).word a = s.word a := rfl

/-! `State.setKbq` -/

@[simp] theorem State.reg_setKbq (s : State) (v : List Byte) (q : Reg) : (s.setKbq v).reg q = s.reg q := rfl
@[simp] theorem State.pc_setKbq (s : State) (v : List Byte) : (s.setKbq v).pc = s.pc := rfl
@[simp] theorem State.cond_setKbq (s : State) (v : List Byte) : (s.setKbq v).cond = s.cond := rfl
@[simp] theorem State.mem_setKbq (s : State) (v : List Byte) : (s.setKbq v).mem = s.mem := rfl
@[simp] theorem State.run_setKbq (s : State) (v : List Byte) : (s.setKbq v).run = s.run := rfl
@[simp] theorem State.ir_setKbq (s : State) (v : List Byte) : (s.setKbq v).ir = s.ir := rfl
@[simp] theorem State.kbq_setKbq (s : State) (v : List Byte) : (s.setKbq v).kbq = v := rfl
@[simp] theorem State.conout_setKbq (s : State) (v : List Byte) : (s.setKbq v).conout = s.conout := rfl
@[simp] theorem State.cancelReq_setKbq (s : State) (v : List Byte) : (s.setKbq v).cancelReq = s.cancelReq := rfl
@[simp] theorem State.word_setKbq (s : State) (v : List Byte) (a : Word) : (s.setKbq v).word a = s.word a := rfl

/-! `State.setConout` -/

@[simp] theorem State.reg_setConout (s : State) (v : List OutEvent) (q : Reg) : (s.setConout v).reg q = s.reg q := rfl
@[simp] theorem State.pc_setConout (s : State) (v : List OutEvent) : (s.setConout v).pc = s.pc := rfl
@[simp] theorem State.cond_setConout (s : State) (v : List OutEvent) : (s.setConout v).cond = s.cond := rfl
@[simp] theorem State.mem_setConout (s : State) (v : List OutEvent) : (s.setConout v).mem = s.mem := rfl
@[simp] theorem State.run_setConout (s : State) (v : List OutEvent) : (s.setConout v).run = s.run := rfl
@[simp] theorem State.ir_setConout (s : State) (v : List OutEvent) : (s.setConout v).ir = s.ir := rfl
@[simp] theorem State.kbq_setConout (s : State) (v : List OutEvent) : (s.setConout v).kbq = s.kbq := rfl
@[simp] theorem State.conout_setConout (s : State) (v : List OutEvent) : (s.setConout v).conout = v := rfl
@[simp] theorem State.cancelReq_setConout (s : State) (v : List OutEvent) : (s.setConout v).cancelReq = s.cancelReq := rfl
@[simp] theorem State.word_setConout (s : State) (v : List OutEvent) (a : Word) : (s.setConout v).word a = s.word a := rfl

/-! `State.setCancelReq` -/

@[simp] theorem State.reg_setCancelReq (s : State) (v : Bool) (q : Reg) : (s.setCancelReq v).reg q = s.reg q := rfl
@[simp] theorem State.pc_setCancelReq (s : State) (v : Bool) : (s.setCancelReq v).pc = s.pc := rfl
@[simp] theorem State.cond_setCancelReq (s : State) (v : Bool) : (s.setCancelReq v).cond = s.cond := rfl
@[simp] theorem State.mem_setCancelReq (s : State) (v : Bool) : (s.setCancelReq v).mem = s.mem := rfl
@[simp] theorem State.run_setCancelReq (s : State) (v : Bool) : (s.setCancelReq v).run = s.run := rfl
@[simp] theorem State.ir_setCancelReq (s : State) (v : Bool) : (s.setCancelReq v).ir = s.ir := rfl
@[simp] theorem State.kbq_setCancelReq (s : State) (v : Bool) : (s.setCancelReq v).kbq = s.kbq := rfl
@[simp] theorem State.conout_setCancelReq (s : State) (v : Bool) : (s.setCancelReq v).conout = s.conout := rfl
@[simp] theorem State.cancelReq_setCancelReq (s : State) (v : Bool) : (s.setCancelReq v).cancelReq = v := rfl
@[simp] theorem State.word_setCancelReq (s : State) (v : Bool) (a : Word) : (s.setCancelReq v).word a = s.word a := rfl

/-! `State.setReg` -/

@[simp] theorem State.pc_setReg (s : State) (r : Reg) (v : Word) : (s.setReg r v).pc = s.pc := rfl
@[simp] theorem State.cond_setReg (s : State) (r : Reg) (v : Word) : (s.setReg r v).cond = s.cond := rfl
@[simp] theorem State.mem_setReg (s : State) (r : Reg) (v : Word) : (s.setReg r v).mem = s.mem := rfl
@[simp] theorem State.run_setReg (s : State) (r : Reg) (v : Word) : (s.setReg r v).run = s.run := rfl
@[simp] theorem State.ir_setReg (s : State) (r : Reg) (v : Word) : (s.setReg r v).ir = s.ir := rfl
@[simp] theorem State.kbq_setReg (s : State) (r : Reg) (v : Word) : (s.setReg r v).kbq = s.kbq := rfl
@[simp] theorem State.conout_setReg (s : State) (r : Reg) (v : Word) : (s.setReg r v).conout = s.conout := rfl
@[simp] theorem State.cancelReq_setReg (s : State) (r : Reg) (v : Word) : (s.setReg r v).cancelReq = s.cancelReq := rfl
@[simp] theorem State.word_setReg (s : State) (r : Reg) (v a : Word) : (s.setReg r v).word a = s.word a := rfl

end Sys2Proof.Machine
end

