-- ==== Sys2Proof/Laws/Ops.lean ====
section
/-!
SUPPORT. What each shared operation does to each field, and what a read through the keyboard intercept can do
(20_memory.md R54), each said once.
-/

namespace Sys2Proof.Machine

/-! `State.setcc` -/

@[simp] theorem State.reg_setcc (s : State) (v : Word) (q : Reg) : (s.setcc v).reg q = s.reg q := rfl
@[simp] theorem State.pc_setcc (s : State) (v : Word) : (s.setcc v).pc = s.pc := rfl
@[simp] theorem State.cond_setcc (s : State) (v : Word) : (s.setcc v).cond = condOf v := rfl
@[simp] theorem State.mem_setcc (s : State) (v : Word) : (s.setcc v).mem = s.mem := rfl
@[simp] theorem State.run_setcc (s : State) (v : Word) : (s.setcc v).run = s.run := rfl
@[simp] theorem State.ir_setcc (s : State) (v : Word) : (s.setcc v).ir = s.ir := rfl
@[simp] theorem State.kbq_setcc (s : State) (v : Word) : (s.setcc v).kbq = s.kbq := rfl
@[simp] theorem State.conout_setcc (s : State) (v : Word) : (s.setcc v).conout = s.conout := rfl
@[simp] theorem State.cancelReq_setcc (s : State) (v : Word) : (s.setcc v).cancelReq = s.cancelReq := rfl
@[simp] theorem State.word_setcc (s : State) (v : Word) (x : Word) : (s.setcc v).word x = s.word x := rfl

/-! `State.setRegCC` -/

@[simp] theorem State.reg_setRegCC (s : State) (d : Reg) (v : Word) (q : Reg) :
    (s.setRegCC d v).reg q = if q = d then v else s.reg q :=
  State.reg_setReg ..
@[simp] theorem State.pc_setRegCC (s : State) (d : Reg) (v : Word) : (s.setRegCC d v).pc = s.pc := rfl
@[simp] theorem State.cond_setRegCC (s : State) (d : Reg) (v : Word) : (s.setRegCC d v).cond = condOf v := rfl
@[simp] theorem State.mem_setRegCC (s : State) (d : Reg) (v : Word) : (s.setRegCC d v).mem = s.mem := rfl
@[simp] theorem State.run_setRegCC (s : State) (d : Reg) (v : Word) : (s.setRegCC d v).run = s.run := rfl
@[simp] theorem State.ir_setRegCC (s : State) (d : Reg) (v : Word) : (s.setRegCC d v).ir = s.ir := rfl
@[simp] theorem State.kbq_setRegCC (s : State) (d : Reg) (v : Word) : (s.setRegCC d v).kbq = s.kbq := rfl
@[simp] theorem State.conout_setRegCC (s : State) (d : Reg) (v : Word) : (s.setRegCC d v).conout = s.conout := rfl
@[simp] theorem State.cancelReq_setRegCC (s : State) (d : Reg) (v : Word) : (s.setRegCC d v).cancelReq = s.cancelReq := rfl
@[simp] theorem State.word_setRegCC (s : State) (d : Reg) (v : Word) (x : Word) : (s.setRegCC d v).word x = s.word x := rfl

/-! `State.memWrite` -/

@[simp] theorem State.reg_memWrite (s : State) (a v : Word) (q : Reg) : (s.memWrite a v).reg q = s.reg q := rfl
@[simp] theorem State.pc_memWrite (s : State) (a v : Word) : (s.memWrite a v).pc = s.pc := rfl
@[simp] theorem State.cond_memWrite (s : State) (a v : Word) : (s.memWrite a v).cond = s.cond := rfl
@[simp] theorem State.mem_memWrite (s : State) (a v : Word) : (s.memWrite a v).mem = s.mem.write a.toNat v := rfl
@[simp] theorem State.run_memWrite (s : State) (a v : Word) : (s.memWrite a v).run = s.run := rfl
@[simp] theorem State.ir_memWrite (s : State) (a v : Word) : (s.memWrite a v).ir = s.ir := rfl
@[simp] theorem State.kbq_memWrite (s : State) (a v : Word) : (s.memWrite a v).kbq = s.kbq := rfl
@[simp] theorem State.conout_memWrite (s : State) (a v : Word) : (s.memWrite a v).conout = s.conout := rfl
@[simp] theorem State.cancelReq_memWrite (s : State) (a v : Word) : (s.memWrite a v).cancelReq = s.cancelReq := rfl

/-! `State.conOut` -/

@[simp] theorem State.reg_conOut (s : State) (b : Byte) (q : Reg) : (s.conOut b).reg q = s.reg q := rfl
@[simp] theorem State.pc_conOut (s : State) (b : Byte) : (s.conOut b).pc = s.pc := rfl
@[simp] theorem State.cond_conOut (s : State) (b : Byte) : (s.conOut b).cond = s.cond := rfl
@[simp] theorem State.mem_conOut (s : State) (b : Byte) : (s.conOut b).mem = s.mem := rfl
@[simp] theorem State.run_conOut (s : State) (b : Byte) : (s.conOut b).run = s.run := rfl
@[simp] theorem State.ir_conOut (s : State) (b : Byte) : (s.conOut b).ir = s.ir := rfl
@[simp] theorem State.kbq_conOut (s : State) (b : Byte) : (s.conOut b).kbq = s.kbq := rfl
@[simp] theorem State.conout_conOut (s : State) (b : Byte) : (s.conOut b).conout = s.conout ++ [.byte b] := rfl
@[simp] theorem State.cancelReq_conOut (s : State) (b : Byte) : (s.conOut b).cancelReq = s.cancelReq := rfl
@[simp] theorem State.word_conOut (s : State) (b : Byte) (x : Word) : (s.conOut b).word x = s.word x := rfl

/-! `State.conFlush` -/

@[simp] theorem State.reg_conFlush (s : State) (q : Reg) : s.conFlush.reg q = s.reg q := rfl
@[simp] theorem State.pc_conFlush (s : State) : s.conFlush.pc = s.pc := rfl
@[simp] theorem State.cond_conFlush (s : State) : s.conFlush.cond = s.cond := rfl
@[simp] theorem State.mem_conFlush (s : State) : s.conFlush.mem = s.mem := rfl
@[simp] theorem State.run_conFlush (s : State) : s.conFlush.run = s.run := rfl
@[simp] theorem State.ir_conFlush (s : State) : s.conFlush.ir = s.ir := rfl
@[simp] theorem State.kbq_conFlush (s : State) : s.conFlush.kbq = s.kbq := rfl
@[simp] theorem State.conout_conFlush (s : State) : s.conFlush.conout = s.conout ++ [.flush] := rfl
@[simp] theorem State.cancelReq_conFlush (s : State) : s.conFlush.cancelReq = s.cancelReq := rfl
@[simp] theorem State.word_conFlush (s : State) (x : Word) : s.conFlush.word x = s.word x := rfl

/-! `State.linkR7` -/

@[simp] theorem State.reg_linkR7 (s : State) (q : Reg) :
    s.linkR7.reg q = if q = 7 then s.pc else s.reg q :=
  State.reg_setReg ..
@[simp] theorem State.pc_linkR7 (s : State) : s.linkR7.pc = s.pc := rfl
@[simp] theorem State.cond_linkR7 (s : State) : s.linkR7.cond = s.cond := rfl
@[simp] theorem State.mem_linkR7 (s : State) : s.linkR7.mem = s.mem := rfl
@[simp] theorem State.run_linkR7 (s : State) : s.linkR7.run = s.run := rfl
@[simp] theorem State.ir_linkR7 (s : State) : s.linkR7.ir = s.ir := rfl
@[simp] theorem State.kbq_linkR7 (s : State) : s.linkR7.kbq = s.kbq := rfl
@[simp] theorem State.conout_linkR7 (s : State) : s.linkR7.conout = s.conout := rfl
@[simp] theorem State.cancelReq_linkR7 (s : State) : s.linkR7.cancelReq = s.cancelReq := rfl
@[simp] theorem State.word_linkR7 (s : State) (x : Word) : s.linkR7.word x = s.word x := rfl

/-! `State.raise` -/

@[simp] theorem State.reg_raise (s : State) (c : Cause) (v : Word) (q : Reg) : (s.raise c v).reg q = s.reg q := rfl
@[simp] theorem State.pc_raise (s : State) (c : Cause) (v : Word) : (s.raise c v).pc = s.pc := rfl
@[simp] theorem State.cond_raise (s : State) (c : Cause) (v : Word) : (s.raise c v).cond = s.cond := rfl
@[simp] theorem State.mem_raise (s : State) (c : Cause) (v : Word) : (s.raise c v).mem = s.mem := rfl
@[simp] theorem State.run_raise (s : State) (c : Cause) (v : Word) : (s.raise c v).run = .faulted c v := rfl
@[simp] theorem State.ir_raise (s : State) (c : Cause) (v : Word) : (s.raise c v).ir = s.ir := rfl
@[simp] theorem State.kbq_raise (s : State) (c : Cause) (v : Word) : (s.raise c v).kbq = s.kbq := rfl
@[simp] theorem State.conout_raise (s : State) (c : Cause) (v : Word) : (s.raise c v).conout = s.conout := rfl
@[simp] theorem State.cancelReq_raise (s : State) (c : Cause) (v : Word) : (s.raise c v).cancelReq = s.cancelReq := rfl
@[simp] theorem State.word_raise (s : State) (c : Cause) (v : Word) (x : Word) : (s.raise c v).word x = s.word x := rfl

/-! `State.halt` -/

@[simp] theorem State.reg_halt (s : State) (q : Reg) : s.halt.reg q = s.reg q := rfl
@[simp] theorem State.pc_halt (s : State) : s.halt.pc = s.pc := rfl
@[simp] theorem State.cond_halt (s : State) : s.halt.cond = s.cond := rfl
@[simp] theorem State.mem_halt (s : State) : s.halt.mem = s.mem := rfl
@[simp] theorem State.run_halt (s : State) : s.halt.run = .halted := rfl
@[simp] theorem State.ir_halt (s : State) : s.halt.ir = s.ir := rfl
@[simp] theorem State.kbq_halt (s : State) : s.halt.kbq = s.kbq := rfl
@[simp] theorem State.conout_halt (s : State) : s.halt.conout = s.conout := rfl
@[simp] theorem State.cancelReq_halt (s : State) : s.halt.cancelReq = s.cancelReq := rfl
@[simp] theorem State.word_halt (s : State) (x : Word) : s.halt.word x = s.word x := rfl

/-! `State.supplyInput` -/

@[simp] theorem State.reg_supplyInput (s : State) (bs : List Byte) (q : Reg) : (s.supplyInput bs).reg q = s.reg q := rfl
@[simp] theorem State.pc_supplyInput (s : State) (bs : List Byte) : (s.supplyInput bs).pc = s.pc := rfl
@[simp] theorem State.cond_supplyInput (s : State) (bs : List Byte) : (s.supplyInput bs).cond = s.cond := rfl
@[simp] theorem State.mem_supplyInput (s : State) (bs : List Byte) : (s.supplyInput bs).mem = s.mem := rfl
@[simp] theorem State.run_supplyInput (s : State) (bs : List Byte) : (s.supplyInput bs).run = s.run := rfl
@[simp] theorem State.ir_supplyInput (s : State) (bs : List Byte) : (s.supplyInput bs).ir = s.ir := rfl
@[simp] theorem State.kbq_supplyInput (s : State) (bs : List Byte) : (s.supplyInput bs).kbq = s.kbq ++ bs := rfl
@[simp] theorem State.conout_supplyInput (s : State) (bs : List Byte) : (s.supplyInput bs).conout = s.conout := rfl
@[simp] theorem State.cancelReq_supplyInput (s : State) (bs : List Byte) : (s.supplyInput bs).cancelReq = s.cancelReq := rfl
@[simp] theorem State.word_supplyInput (s : State) (bs : List Byte) (x : Word) : (s.supplyInput bs).word x = s.word x := rfl

/-! `State.requestCancel` -/

@[simp] theorem State.reg_requestCancel (s : State) (q : Reg) : s.requestCancel.reg q = s.reg q := rfl
@[simp] theorem State.pc_requestCancel (s : State) : s.requestCancel.pc = s.pc := rfl
@[simp] theorem State.cond_requestCancel (s : State) : s.requestCancel.cond = s.cond := rfl
@[simp] theorem State.mem_requestCancel (s : State) : s.requestCancel.mem = s.mem := rfl
@[simp] theorem State.run_requestCancel (s : State) : s.requestCancel.run = s.run := rfl
@[simp] theorem State.ir_requestCancel (s : State) : s.requestCancel.ir = s.ir := rfl
@[simp] theorem State.kbq_requestCancel (s : State) : s.requestCancel.kbq = s.kbq := rfl
@[simp] theorem State.conout_requestCancel (s : State) : s.requestCancel.conout = s.conout := rfl
@[simp] theorem State.cancelReq_requestCancel (s : State) : s.requestCancel.cancelReq = true := rfl
@[simp] theorem State.word_requestCancel (s : State) (x : Word) : s.requestCancel.word x = s.word x := rfl

/-! Console input (20_memory.md R60, R61). -/

theorem State.kbdPoll_iff (s : State) : s.kbdPoll = true ↔ s.kbq ≠ [] := by
  simp [State.kbdPoll]

theorem State.kbdTake_nil {s : State} (h : s.kbq = []) : s.kbdTake = none := by
  simp [State.kbdTake, h]

theorem State.kbdTake_cons {s : State} {b : Byte} {q : List Byte} (h : s.kbq = b :: q) :
    s.kbdTake = some (b, s.setKbq q) := by
  simp [State.kbdTake, h]

/-- What a take that has a result gives and leaves. -/
theorem State.kbdTake_eq_some {s t : State} {b : Byte} (h : s.kbdTake = some (b, t)) :
    ∃ q, s.kbq = b :: q ∧ t = s.setKbq q := by
  unfold State.kbdTake at h
  split at h
  · simp at h
  · rename_i c q hq
    obtain ⟨rfl, rfl⟩ := by simpa using h
    exact ⟨q, hq, rfl⟩

/-! Console output (20_memory.md R62, R63). -/

/-- `conOutAll` appends the bytes, in order, and changes nothing else. -/
theorem State.conOutAll_eq (s : State) (bs : List Byte) :
    s.conOutAll bs = s.setConout (s.conout ++ bs.map .byte) := by
  induction bs generalizing s with
  | nil => simp [State.conOutAll, State.setConout]
  | cons b bs ih => simp [State.conOutAll, ih, State.conOut, State.setConout]

/-! Stored Words. -/

/-- A store is seen at its address and nowhere else (20_memory.md R56). -/
theorem State.word_memWrite {s : State} (h : s.mem.wf) (a v x : Word) :
    (s.memWrite a v).word x = if x = a then v else s.word x := by
  simp only [State.word, State.mem_memWrite, Memory.read_write h.1, BitVec.toNat_inj]

/-- A store keeps memory's canonical form. -/
theorem State.wf_memWrite {s : State} (h : s.mem.wf) (a v : Word) : (s.memWrite a v).mem.wf :=
  Memory.wf_writeWord h a v

/-! Reads through the intercept (20_memory.md R54). -/

theorem config_keyboardWordsDistinct : config.kbsrAddr ≠ config.kbdrAddr := by decide

theorem State.pollKeyboard_nil {s : State} (h : s.kbq = []) : s.pollKeyboard = s.memWrite config.kbsrAddr 0x0000 := by
  simp [State.pollKeyboard, State.kbdTake_nil h]

theorem State.pollKeyboard_cons {s : State} {b : Byte} {q : List Byte} (h : s.kbq = b :: q) :
    s.pollKeyboard = ((s.setKbq q).memWrite config.kbsrAddr 0x8000).memWrite config.kbdrAddr (zext8 b) := by
  simp [State.pollKeyboard, State.kbdTake_cons h]

/-- Everything the intercept can do: store 0 in KBSR, or take the head byte and store 0x8000 in KBSR and the byte in
KBDR. -/
theorem State.pollKeyboard_cases (s : State) :
    (s.kbq = [] ∧ s.pollKeyboard = s.memWrite config.kbsrAddr 0x0000) ∨
    ∃ b q, s.kbq = b :: q ∧
      s.pollKeyboard = ((s.setKbq q).memWrite config.kbsrAddr 0x8000).memWrite config.kbdrAddr (zext8 b) := by
  cases h : s.kbq with
  | nil => exact .inl ⟨rfl, State.pollKeyboard_nil h⟩
  | cons b q => exact .inr ⟨b, q, rfl, State.pollKeyboard_cons h⟩

/-- A read of any address but KBSR returns the stored Word and changes nothing (20_memory.md R55, R66). -/
theorem State.memRead_of_ne {s : State} {a : Word} (h : a ≠ config.kbsrAddr) : s.memRead a = (s.word a, s) := by
  simp [State.memRead, h]

/-- A read of KBSR polls, then returns the stored Word. -/
theorem State.memRead_kbsr (s : State) :
    s.memRead config.kbsrAddr = (s.pollKeyboard.word config.kbsrAddr, s.pollKeyboard) := by
  simp [State.memRead]

/-- What a read leaves: the state it began in, or that state after the poll. -/
theorem State.memRead_snd_cases (s : State) (a : Word) : (s.memRead a).2 = s ∨ (s.memRead a).2 = s.pollKeyboard := by
  by_cases h : a = config.kbsrAddr
  · exact .inr (by simp [State.memRead, h])
  · exact .inl (by simp [State.memRead, h])

@[simp] theorem State.reg_pollKeyboard (s : State) (q : Reg) : s.pollKeyboard.reg q = s.reg q := by
  rcases s.pollKeyboard_cases with ⟨-, h⟩ | ⟨b, q', -, h⟩ <;> simp [h]

@[simp] theorem State.pc_pollKeyboard (s : State) : s.pollKeyboard.pc = s.pc := by
  rcases s.pollKeyboard_cases with ⟨-, h⟩ | ⟨b, q', -, h⟩ <;> simp [h]

@[simp] theorem State.cond_pollKeyboard (s : State) : s.pollKeyboard.cond = s.cond := by
  rcases s.pollKeyboard_cases with ⟨-, h⟩ | ⟨b, q', -, h⟩ <;> simp [h]

@[simp] theorem State.run_pollKeyboard (s : State) : s.pollKeyboard.run = s.run := by
  rcases s.pollKeyboard_cases with ⟨-, h⟩ | ⟨b, q', -, h⟩ <;> simp [h]

@[simp] theorem State.ir_pollKeyboard (s : State) : s.pollKeyboard.ir = s.ir := by
  rcases s.pollKeyboard_cases with ⟨-, h⟩ | ⟨b, q', -, h⟩ <;> simp [h]

@[simp] theorem State.conout_pollKeyboard (s : State) : s.pollKeyboard.conout = s.conout := by
  rcases s.pollKeyboard_cases with ⟨-, h⟩ | ⟨b, q', -, h⟩ <;> simp [h]

@[simp] theorem State.cancelReq_pollKeyboard (s : State) : s.pollKeyboard.cancelReq = s.cancelReq := by
  rcases s.pollKeyboard_cases with ⟨-, h⟩ | ⟨b, q', -, h⟩ <;> simp [h]

@[simp] theorem State.reg_memRead (s : State) (a : Word) (q : Reg) : (s.memRead a).2.reg q = s.reg q := by
  rcases s.memRead_snd_cases a with h | h <;> simp [h]

@[simp] theorem State.pc_memRead (s : State) (a : Word) : (s.memRead a).2.pc = s.pc := by
  rcases s.memRead_snd_cases a with h | h <;> simp [h]

@[simp] theorem State.cond_memRead (s : State) (a : Word) : (s.memRead a).2.cond = s.cond := by
  rcases s.memRead_snd_cases a with h | h <;> simp [h]

@[simp] theorem State.run_memRead (s : State) (a : Word) : (s.memRead a).2.run = s.run := by
  rcases s.memRead_snd_cases a with h | h <;> simp [h]

@[simp] theorem State.ir_memRead (s : State) (a : Word) : (s.memRead a).2.ir = s.ir := by
  rcases s.memRead_snd_cases a with h | h <;> simp [h]

@[simp] theorem State.conout_memRead (s : State) (a : Word) : (s.memRead a).2.conout = s.conout := by
  rcases s.memRead_snd_cases a with h | h <;> simp [h]

@[simp] theorem State.cancelReq_memRead (s : State) (a : Word) : (s.memRead a).2.cancelReq = s.cancelReq := by
  rcases s.memRead_snd_cases a with h | h <;> simp [h]

theorem State.wf_pollKeyboard {s : State} (h : s.mem.wf) : s.pollKeyboard.mem.wf := by
  rcases s.pollKeyboard_cases with ⟨-, e⟩ | ⟨b, q, -, e⟩ <;> rw [e]
  · exact State.wf_memWrite h ..
  · exact State.wf_memWrite (State.wf_memWrite (s := s.setKbq q) h ..) ..

/-- A read keeps memory's canonical form. -/
theorem State.wf_memRead {s : State} (h : s.mem.wf) (a : Word) : (s.memRead a).2.mem.wf := by
  rcases s.memRead_snd_cases a with e | e <;> rw [e]
  · exact h
  · exact State.wf_pollKeyboard h

/-- A poll changes no stored Word but the two keyboard words. -/
theorem State.word_pollKeyboard {s : State} (h : s.mem.wf) {x : Word} (hs : x ≠ config.kbsrAddr)
    (hd : x ≠ config.kbdrAddr) : s.pollKeyboard.word x = s.word x := by
  rcases s.pollKeyboard_cases with ⟨-, e⟩ | ⟨b, q, -, e⟩ <;> rw [e]
  · simp [State.word_memWrite h, hs]
  · simp [State.word_memWrite (State.wf_memWrite (s := s.setKbq q) h ..), State.word_memWrite (s := s.setKbq q) h, hs, hd]

/-- A read changes no stored Word but the two keyboard words. -/
theorem State.word_memRead {s : State} (h : s.mem.wf) (a : Word) {x : Word} (hs : x ≠ config.kbsrAddr)
    (hd : x ≠ config.kbdrAddr) : (s.memRead a).2.word x = s.word x := by
  rcases s.memRead_snd_cases a with e | e <;> rw [e]
  exact State.word_pollKeyboard h hs hd

/-- A read takes no byte, or the head byte. -/
theorem State.kbq_memRead (s : State) (a : Word) : (s.memRead a).2.kbq = s.kbq ∨ (s.memRead a).2.kbq = s.kbq.tail := by
  rcases s.memRead_snd_cases a with e | e <;> rw [e]
  · exact .inl rfl
  · rcases s.pollKeyboard_cases with ⟨hq, e⟩ | ⟨b, q, hq, e⟩ <;> simp [e, hq]

/-- With input there, a KBSR read returns 0x8000; with none, 0x0000 (20_memory.md R54). -/
theorem State.memRead_kbsr_fst {s : State} (h : s.mem.wf) :
    (s.memRead config.kbsrAddr).1 = if s.kbq = [] then 0x0000 else 0x8000 := by
  rw [State.memRead_kbsr]
  rcases s.pollKeyboard_cases with ⟨hq, e⟩ | ⟨b, q, hq, e⟩ <;> simp only [e, hq]
  · simp [State.word_memWrite h]
  · simp [State.word_memWrite (State.wf_memWrite (s := s.setKbq q) h ..), State.word_memWrite (s := s.setKbq q) h,
      config_keyboardWordsDistinct]

/-! The fetch (40_instruction_cycle.md R122, R123) and the load. -/

theorem State.ir_fetch (s : State) : s.fetch.ir = (s.memRead s.pc).1 := rfl

theorem State.pc_fetch (s : State) : s.fetch.pc = s.pc + 1 := rfl

theorem State.mem_fetch (s : State) : s.fetch.mem = (s.memRead s.pc).2.mem := rfl

theorem State.kbq_fetch (s : State) : s.fetch.kbq = (s.memRead s.pc).2.kbq := rfl

@[simp] theorem State.reg_fetch (s : State) (q : Reg) : s.fetch.reg q = s.reg q := by
  simp [State.fetch]

@[simp] theorem State.cond_fetch (s : State) : s.fetch.cond = s.cond := by
  simp [State.fetch]

@[simp] theorem State.run_fetch (s : State) : s.fetch.run = s.run := by
  simp [State.fetch]

@[simp] theorem State.conout_fetch (s : State) : s.fetch.conout = s.conout := by
  simp [State.fetch]

@[simp] theorem State.cancelReq_fetch (s : State) : s.fetch.cancelReq = s.cancelReq := by
  simp [State.fetch]

/-- Away from KBSR the fetch reads the stored Word and changes only `ir` and `pc`. -/
theorem State.fetch_of_ne {s : State} (h : s.pc ≠ config.kbsrAddr) :
    s.fetch = (s.setIr (s.word s.pc)).setPc (s.pc + 1) := by
  simp [State.fetch, State.memRead_of_ne h]

end Sys2Proof.Machine
end

