-- ==== Sys2Proof/Laws/PerInstr.lean ====
section
/-!
SUPPORT. One law of the instruction as syntax, per constructor: its Word lies in its row of the opcode table
(30_encoding.md R93: "A Word matches a row when `(ir & mask) == match`").
-/

namespace Sys2Proof.Laws.InRow

/-- The instruction's Word matches the instruction's row. -/
def Statement (i : Instr) : Prop := encode i &&& (tableRow i).2 = (tableRow i).1

theorem br (n : Bool) (z : Bool) (p : Bool) (off : BitVec 9) : Statement (.br n z p off) := by
  simp (disch := omega) [Statement, tableRow, opcodeRow, opcodeMask, and_fieldMask,
    encode, placeOpcode, placeBit, fieldAt_place, fieldAt_place_of_disjoint]

theorem addReg (dr : Reg) (sr1 : Reg) (sr2 : Reg) : Statement (.addReg dr sr1 sr2) := by
  simp (disch := omega) [Statement, tableRow, modeRow, opcodeMask, and_fieldMask,
    encode, placeOpcode, placeReg, placeBit, BitVec.and_or_distrib_left, fieldAt_place, fieldAt_place_of_disjoint]

theorem addImm (dr : Reg) (sr1 : Reg) (imm : BitVec 5) : Statement (.addImm dr sr1 imm) := by
  simp (disch := omega) [Statement, tableRow, modeRow, opcodeMask, and_fieldMask,
    encode, placeOpcode, placeReg, placeBit, BitVec.and_or_distrib_left, fieldAt_place, fieldAt_place_of_disjoint]

theorem ld (dr : Reg) (off : BitVec 9) : Statement (.ld dr off) := by
  simp (disch := omega) [Statement, tableRow, opcodeRow, opcodeMask, and_fieldMask,
    encode, placeOpcode, placeReg, fieldAt_place, fieldAt_place_of_disjoint]

theorem st (sr : Reg) (off : BitVec 9) : Statement (.st sr off) := by
  simp (disch := omega) [Statement, tableRow, opcodeRow, opcodeMask, and_fieldMask,
    encode, placeOpcode, placeReg, fieldAt_place, fieldAt_place_of_disjoint]

theorem jsr (off : BitVec 11) : Statement (.jsr off) := by
  simp (disch := omega) [Statement, tableRow, modeRow, opcodeMask, and_fieldMask,
    encode, placeOpcode, placeBit, BitVec.and_or_distrib_left, fieldAt_place, fieldAt_place_of_disjoint]

theorem jsrr (baseR : Reg) : Statement (.jsrr baseR) := by
  simp (disch := omega) [Statement, tableRow, modeRow, opcodeMask, and_fieldMask,
    encode, placeOpcode, placeReg, placeBit, BitVec.and_or_distrib_left, fieldAt_place, fieldAt_place_of_disjoint]

theorem andReg (dr : Reg) (sr1 : Reg) (sr2 : Reg) : Statement (.andReg dr sr1 sr2) := by
  simp (disch := omega) [Statement, tableRow, modeRow, opcodeMask, and_fieldMask,
    encode, placeOpcode, placeReg, placeBit, BitVec.and_or_distrib_left, fieldAt_place, fieldAt_place_of_disjoint]

theorem andImm (dr : Reg) (sr1 : Reg) (imm : BitVec 5) : Statement (.andImm dr sr1 imm) := by
  simp (disch := omega) [Statement, tableRow, modeRow, opcodeMask, and_fieldMask,
    encode, placeOpcode, placeReg, placeBit, BitVec.and_or_distrib_left, fieldAt_place, fieldAt_place_of_disjoint]

theorem ldr (dr : Reg) (baseR : Reg) (off : BitVec 6) : Statement (.ldr dr baseR off) := by
  simp (disch := omega) [Statement, tableRow, opcodeRow, opcodeMask, and_fieldMask,
    encode, placeOpcode, placeReg, fieldAt_place, fieldAt_place_of_disjoint]

theorem str (sr : Reg) (baseR : Reg) (off : BitVec 6) : Statement (.str sr baseR off) := by
  simp (disch := omega) [Statement, tableRow, opcodeRow, opcodeMask, and_fieldMask,
    encode, placeOpcode, placeReg, fieldAt_place, fieldAt_place_of_disjoint]

theorem rti : Statement .rti := by
  simp (disch := omega) [Statement, tableRow, opcodeRow, opcodeMask, and_fieldMask,
    encode, placeOpcode, fieldAt_place]

theorem not (dr : Reg) (sr : Reg) : Statement (.not dr sr) := by
  simp (disch := omega) [Statement, tableRow, opcodeRow, opcodeMask, and_fieldMask,
    encode, placeOpcode, placeReg, fieldAt_place, fieldAt_place_of_disjoint]

theorem ldi (dr : Reg) (off : BitVec 9) : Statement (.ldi dr off) := by
  simp (disch := omega) [Statement, tableRow, opcodeRow, opcodeMask, and_fieldMask,
    encode, placeOpcode, placeReg, fieldAt_place, fieldAt_place_of_disjoint]

theorem sti (sr : Reg) (off : BitVec 9) : Statement (.sti sr off) := by
  simp (disch := omega) [Statement, tableRow, opcodeRow, opcodeMask, and_fieldMask,
    encode, placeOpcode, placeReg, fieldAt_place, fieldAt_place_of_disjoint]

theorem jmp (baseR : Reg) : Statement (.jmp baseR) := by
  simp (disch := omega) [Statement, tableRow, opcodeRow, opcodeMask, and_fieldMask,
    encode, placeOpcode, placeReg, fieldAt_place, fieldAt_place_of_disjoint]

theorem res : Statement .res := by
  simp (disch := omega) [Statement, tableRow, opcodeRow, opcodeMask, and_fieldMask,
    encode, placeOpcode, fieldAt_place]

theorem lea (dr : Reg) (off : BitVec 9) : Statement (.lea dr off) := by
  simp (disch := omega) [Statement, tableRow, opcodeRow, opcodeMask, and_fieldMask,
    encode, placeOpcode, placeReg, fieldAt_place, fieldAt_place_of_disjoint]

theorem trapGetc : Statement .trapGetc := by
  simp (disch := omega) [Statement, tableRow, vectorRow, opcodeMask, and_fieldMask,
    encode, placeOpcode, BitVec.and_or_distrib_left, fieldAt_place, fieldAt_place_of_disjoint]

theorem trapOut : Statement .trapOut := by
  simp (disch := omega) [Statement, tableRow, vectorRow, opcodeMask, and_fieldMask,
    encode, placeOpcode, BitVec.and_or_distrib_left, fieldAt_place, fieldAt_place_of_disjoint]

theorem trapPuts : Statement .trapPuts := by
  simp (disch := omega) [Statement, tableRow, vectorRow, opcodeMask, and_fieldMask,
    encode, placeOpcode, BitVec.and_or_distrib_left, fieldAt_place, fieldAt_place_of_disjoint]

theorem trapIn : Statement .trapIn := by
  simp (disch := omega) [Statement, tableRow, vectorRow, opcodeMask, and_fieldMask,
    encode, placeOpcode, BitVec.and_or_distrib_left, fieldAt_place, fieldAt_place_of_disjoint]

theorem trapPutsp : Statement .trapPutsp := by
  simp (disch := omega) [Statement, tableRow, vectorRow, opcodeMask, and_fieldMask,
    encode, placeOpcode, BitVec.and_or_distrib_left, fieldAt_place, fieldAt_place_of_disjoint]

theorem trapHalt : Statement .trapHalt := by
  simp (disch := omega) [Statement, tableRow, vectorRow, opcodeMask, and_fieldMask,
    encode, placeOpcode, BitVec.and_or_distrib_left, fieldAt_place, fieldAt_place_of_disjoint]

theorem trapUndefined (vector : BitVec 8) : Statement (.trapUndefined vector) := by
  simp (disch := omega) [Statement, tableRow, opcodeRow, opcodeMask, and_fieldMask,
    encode, placeOpcode, fieldAt_place, fieldAt_place_of_disjoint]

end Sys2Proof.Laws.InRow
end

