-- ==== Sys2Proof/Laws/Reset.lean ====
section
/-!
SUPPORT. Loading an image keeps memory's canonical form (70_reset_and_hazards.md R243).
-/

namespace Sys2Proof.Machine

theorem Memory.wf_loadWords {m : Memory} (h : m.wf) (a : Nat) (ws : List Word) : (m.loadWords a ws).wf := by
  induction ws generalizing m a with
  | nil => exact h
  | cons w ws ih =>
    simp only [Memory.loadWords]
    split
    · exact ih (Memory.wf_write h ‹_› _) _
    · exact h

theorem Memory.wf_loadImage {m : Memory} (h : m.wf) (i : Image) : (m.loadImage i).wf :=
  Memory.wf_loadWords h ..

end Sys2Proof.Machine
end

