-- ==== Sys2Proof/Laws/Walk.lean ====
section
/-!
SUPPORT. The string walk of PUTS and PUTSP (44_trap.md R184, R186, R189): what it leaves unchanged, what it can change,
and that the bound on its reads is never passed.
-/

namespace Sys2Proof.Machine

/-- What a walk leaves as it was, and how it moves the two console streams. -/
structure WalkFrame (s t : State) : Prop where
  reg : ∀ q, t.reg q = s.reg q
  pc : t.pc = s.pc
  cond : t.cond = s.cond
  run : t.run = s.run
  ir : t.ir = s.ir
  cancelReq : t.cancelReq = s.cancelReq
  kbq : ∃ taken, s.kbq = taken ++ t.kbq
  conout : ∃ bs : List Byte, t.conout = s.conout ++ bs.map .byte

theorem WalkFrame.refl (s : State) : WalkFrame s s :=
  ⟨fun _ => rfl, rfl, rfl, rfl, rfl, rfl, ⟨[], rfl⟩, ⟨[], by simp⟩⟩

theorem WalkFrame.trans {s t u : State} (h : WalkFrame s t) (k : WalkFrame t u) : WalkFrame s u where
  reg q := (k.reg q).trans (h.reg q)
  pc := k.pc.trans h.pc
  cond := k.cond.trans h.cond
  run := k.run.trans h.run
  ir := k.ir.trans h.ir
  cancelReq := k.cancelReq.trans h.cancelReq
  kbq := by
    obtain ⟨p, hp⟩ := h.kbq
    obtain ⟨q, hq⟩ := k.kbq
    exact ⟨p ++ q, by rw [hp, hq, List.append_assoc]⟩
  conout := by
    obtain ⟨p, hp⟩ := h.conout
    obtain ⟨q, hq⟩ := k.conout
    exact ⟨p ++ q, by rw [hq, hp]; simp⟩

theorem walkFrame_memRead (s : State) (a : Word) : WalkFrame s (s.memRead a).2 where
  reg _ := State.reg_memRead ..
  pc := State.pc_memRead ..
  cond := State.cond_memRead ..
  run := State.run_memRead ..
  ir := State.ir_memRead ..
  cancelReq := State.cancelReq_memRead ..
  kbq := by
    rcases s.kbq_memRead a with e | e <;> rw [e]
    · exact ⟨[], rfl⟩
    · exact ⟨s.kbq.take 1, by cases s.kbq <;> simp⟩
  conout := ⟨[], by simp⟩

theorem walkFrame_conOutAll (s : State) (bs : List Byte) : WalkFrame s (s.conOutAll bs) := by
  rw [State.conOutAll_eq]
  exact ⟨fun _ => rfl, rfl, rfl, rfl, rfl, rfl, ⟨[], rfl⟩, ⟨bs, rfl⟩⟩

/-- Everything a walk that ends can do outside memory. -/
theorem stringWalk_frame {chars : Word → List Byte} {fuel : Nat} {a : Word} {s t : State}
    (e : stringWalk chars fuel a s = some t) : WalkFrame s t := by
  induction fuel generalizing a s with
  | zero => simp [stringWalk] at e
  | succ fuel ih =>
    simp only [stringWalk] at e
    have hr := walkFrame_memRead s a
    split at e
    · obtain rfl := by simpa using e
      exact hr
    · exact (hr.trans (walkFrame_conOutAll ..)).trans (ih e)

/-- Everything a walk that ends can do to memory: polls. -/
theorem stringWalk_memory {chars : Word → List Byte} {fuel : Nat} {a : Word} {s t : State} (h : s.mem.wf)
    (e : stringWalk chars fuel a s = some t) :
    t.mem.wf ∧ ∀ x, x ≠ config.kbsrAddr → x ≠ config.kbdrAddr → t.word x = s.word x := by
  induction fuel generalizing a s with
  | zero => simp [stringWalk] at e
  | succ fuel ih =>
    simp only [stringWalk] at e
    have hr := State.wf_memRead h a
    split at e
    · obtain rfl := by simpa using e
      exact ⟨hr, fun x hs hd => State.word_memRead h a hs hd⟩
    · rw [State.conOutAll_eq] at e
      obtain ⟨hw, hx⟩ := ih (by exact hr) e
      exact ⟨hw, fun x hs hd => (hx x hs hd).trans (State.word_memRead h a hs hd)⟩

/-- How many reads stand before the next read of KBSR. -/
def readsToKbsr (a : Word) : Nat := (config.kbsrAddr - a).toNat

theorem readsToKbsr_kbsr : readsToKbsr config.kbsrAddr = 0 := by decide

theorem readsToKbsr_kbsr_succ : readsToKbsr (config.kbsrAddr + 1) = 65535 := by decide

theorem readsToKbsr_succ {a : Word} (h : a ≠ config.kbsrAddr) : readsToKbsr (a + 1) + 1 = readsToKbsr a := by
  unfold readsToKbsr
  generalize config.kbsrAddr = k at h ⊢
  bv_omega

/-- The walk ends within the reads R189 counts: each pass over KBSR takes one byte, and the pass that finds none reads
0x0000. -/
theorem stringWalk_ends {chars : Word → List Byte} {fuel : Nat} {a : Word} {s : State} (h : s.mem.wf)
    (hf : s.kbq.length * 65536 + readsToKbsr a < fuel) : (stringWalk chars fuel a s).isSome := by
  induction fuel generalizing a s with
  | zero => omega
  | succ fuel ih =>
    simp only [stringWalk]
    have hr := State.wf_memRead h a
    split
    · rfl
    · rename_i hw
      rw [State.conOutAll_eq]
      refine ih (s := (s.memRead a).2.setConout _) hr ?_
      rw [State.kbq_setConout]
      by_cases ha : a = config.kbsrAddr
      · subst ha
        rw [State.memRead_kbsr_fst h] at hw
        rw [State.memRead_kbsr, readsToKbsr_kbsr_succ]
        rcases s.pollKeyboard_cases with ⟨hq, -⟩ | ⟨b, q, hq, e⟩
        · simp [hq] at hw
        · rw [readsToKbsr_kbsr, hq, List.length_cons] at hf
          simp only [e, State.kbq_memWrite, State.kbq_setKbq]
          generalize q.length = n at hf ⊢
          omega
      · have := readsToKbsr_succ ha
        simp only [State.memRead_of_ne ha]
        omega

/-- The bound as R189 writes it. -/
theorem walkFuel_eq (q : List Byte) : walkFuel q = (q.length + 1) * 65536 := by
  induction q with
  | nil => rfl
  | cons b q ih => simp only [walkFuel, ih, List.length_cons]; omega

/-- With the fuel PUTS and PUTSP give it, a walk always ends. -/
theorem stringWalk_walkFuel {s : State} (h : s.mem.wf) (chars : Word → List Byte) (a : Word) :
    ∃ t, stringWalk chars (walkFuel s.kbq) a s = some t := by
  refine Option.isSome_iff_exists.mp (stringWalk_ends h ?_)
  have : readsToKbsr a < 65536 := (config.kbsrAddr - a).isLt
  rw [walkFuel_eq]
  omega

/-- What PUTS and PUTSP answer after the link: a walk's end, flushed. -/
theorem State.putString_eq {s : State} (h : s.mem.wf) (chars : Word → List Byte) :
    ∃ t, s.putString chars = .next t.conFlush ∧ stringWalk chars (walkFuel s.kbq) (s.reg 0) s = some t := by
  obtain ⟨t, ht⟩ := stringWalk_walkFuel h chars (s.reg 0)
  exact ⟨t, by unfold State.putString; rw [ht], ht⟩

/-- A next state of PUTS and PUTSP after the link is a walk's end, flushed. -/
theorem State.putString_next {s u : State} {chars : Word → List Byte} (e : s.putString chars = .next u) :
    ∃ t, u = t.conFlush ∧ stringWalk chars (walkFuel s.kbq) (s.reg 0) s = some t := by
  unfold State.putString at e
  split at e
  · obtain rfl := by simpa using e
    exact ⟨_, rfl, ‹_›⟩
  · simp at e

end Sys2Proof.Machine
end

