-- ==== Sys2Proof/Laws/Step.lean ====
section
/-!
SUPPORT. What a step can do, said once (40_instruction_cycle.md R122, R127, R128); what the two routines that take input
can do; and that `State.withFetchWord` makes the next step run the Word.
-/

namespace Sys2Proof.Machine

theorem step_running {s : State} (h : s.run = .running) :
    step s =
      if s.cancelReq then .next (s.setRun .cancelled)
      else if s.awaitsInput then .next s
      else exec (decode s.fetch.ir) s.fetch := by
  simp only [step, h]

/-- Everything a step that answers a next state can be. -/
theorem step_cases {s t : State} (h : step s = .next t) :
    (s.ended ∧ t = s) ∨
    (s.run = .running ∧ s.cancelReq = true ∧ t = s.setRun .cancelled) ∨
    (s.run = .running ∧ s.cancelReq = false ∧ s.awaitsInput = true ∧ t = s) ∨
    (s.run = .running ∧ s.cancelReq = false ∧ s.awaitsInput = false ∧ exec (decode s.fetch.ir) s.fetch = .next t) := by
  by_cases hr : s.run = .running
  · rw [step_running hr] at h
    cases hc : s.cancelReq <;> cases ha : s.awaitsInput <;> simp_all
  · left
    unfold step at h
    split at h <;> simp_all [State.ended]

/-- Everything GETC can do when it answers a next state (44_trap.md R182). -/
theorem execTrapGetc_next {s t : State} (h : execTrapGetc s = .next t) :
    ∃ b q, s.kbq = b :: q ∧ t = (s.linkR7.setKbq q).setRegCC 0 (zext8 b) := by
  cases hq : s.kbq <;> simp [execTrapGetc, State.kbdTake, hq] at h
  subst h
  exact ⟨_, _, rfl, rfl⟩

/-- Everything IN can do when it answers a next state (44_trap.md R185). -/
theorem execTrapIn_next {s t : State} (h : execTrapIn s = .next t) :
    ∃ b q, s.kbq = b :: q ∧
      t = ((((s.linkR7.conOutAll config.inPrompt).setKbq q).conOut b).conFlush).setRegCC 0 (zext8 b) := by
  cases hq : s.kbq <;> simp [execTrapIn, State.kbdTake, State.conOutAll_eq, hq] at h
  subst h
  exact ⟨_, _, rfl, by simp [State.conOutAll_eq]⟩

theorem State.readyToFetch_pc (s : State) : s.readyToFetch.pc ≠ config.kbsrAddr := by
  simp only [State.readyToFetch, State.pc_setPc]
  split
  · decide
  · assumption

/-- The state `withFetchWord` makes fetches the Word of the table row, and its step is that instruction's. -/
theorem step_withFetchWord {s : State} (h : s.mem.wf) (nbits w : Nat) :
    (s.withFetchWord nbits w).fetch.ir = tableWord nbits w ∧
      step (s.withFetchWord nbits w) = exec (decode (tableWord nbits w)) (s.withFetchWord nbits w).fetch := by
  have key : ∀ u : State, u.pc = s.readyToFetch.pc → u.word u.pc = tableWord nbits w → u.run = .running →
      u.cancelReq = false → u.awaitsInput = false →
      u.fetch.ir = tableWord nbits w ∧ step u = exec (decode (tableWord nbits w)) u.fetch := by
    intro u hp hw hr hc ha
    have hir : u.fetch.ir = tableWord nbits w := by
      rw [State.fetch_of_ne (hp ▸ s.readyToFetch_pc)]
      simpa using hw
    exact ⟨hir, by simp [step_running hr, hc, ha, hir]⟩
  have hm : s.readyToFetch.mem.wf := h
  have hw : (s.readyToFetch.memWrite s.readyToFetch.pc (tableWord nbits w)).word s.readyToFetch.pc =
      tableWord nbits w := by
    rw [State.word_memWrite hm, if_pos rfl]
  unfold State.withFetchWord
  simp only []
  split
  · exact key _ rfl (by simpa using hw) rfl rfl (by simp [State.awaitsInput, State.kbdPoll])
  · exact key _ rfl (by simpa using hw) rfl rfl (Bool.not_eq_true _ ▸ ‹_›)

end Sys2Proof.Machine
end

