-- ==== Sys2Proof/Tests/Slice0.lean ====
section
/-!
SUPPORT. Tests of single steps, with expected results from spec/95_test_vectors.md (each theorem names its section), a
word of each constructor decoded, and, for every statement of Certificates/Slice0/Obligations.lean that has hypotheses,
a state and operands that meet all of them.
-/

namespace Sys2Proof.Tests

open Sys2Proof.Machine

/-! ## Helpers -/

/-- The next state, where there is one. -/
def after (o : Answer) : Option State :=
  match o with
  | .next t => some t
  | .fault _ => none
  | .refused _ => none

/-- The reset state about to fetch the Word `w` at `pc`. -/
def start (pc w : Word) : State := (State.reset.setPc pc).memWrite pc w

/-! ## Well-formedness (30_encoding.md R93: the fallback row holds only where no vector row does) -/

theorem test_wellFormed_refuses_getc_as_undefined : (Instr.trapUndefined 0x20).wellFormed = false := by decide

theorem test_wellFormed_refuses_halt_as_undefined : (Instr.trapUndefined 0x25).wellFormed = false := by decide

theorem test_wellFormed_takes_the_neighbours :
    (Instr.trapUndefined 0x1F).wellFormed = true ∧ (Instr.trapUndefined 0x26).wellFormed = true := by decide

/-! ## Decoding: Words of 95_test_vectors.md section 2.3 (and of 2.4, 2.7 where that section has no Word of a row) -/

theorem test_decode_br : decode 0x0E05 = .br true true true 5 := by decide

theorem test_decode_br_never : decode 0x01FF = .br false false false 0x1FF := by decide

theorem test_decode_addReg : decode 0x1042 = .addReg 0 1 2 := by decide

theorem test_decode_addReg_ignored : decode 0x105A = .addReg 0 1 2 := by decide

theorem test_decode_addImm : decode 0x1462 = .addImm 2 1 2 := by decide

theorem test_decode_ld : decode 0x2004 = .ld 0 4 := by decide

theorem test_decode_st : decode 0x3001 = .st 0 1 := by decide

theorem test_decode_jsr : decode 0x4803 = .jsr 3 := by decide

theorem test_decode_jsrr : decode 0x40C0 = .jsrr 3 := by decide

theorem test_decode_jsrr_ignored : decode 0x46C5 = .jsrr 3 := by decide

theorem test_decode_andReg : decode 0x5042 = .andReg 0 1 2 := by decide

theorem test_decode_andImm : decode 0x56E0 = .andImm 3 3 0 := by decide

theorem test_decode_ldr : decode 0x6440 = .ldr 2 1 0 := by decide

theorem test_decode_str : decode 0x7440 = .str 2 1 0 := by decide

theorem test_decode_rti : decode 0x8000 = .rti ∧ decode 0x8ABC = .rti := by decide

theorem test_decode_not : decode 0x927F = .not 1 1 ∧ decode 0x9240 = .not 1 1 := by decide

theorem test_decode_ldi : decode 0xA006 = .ldi 0 6 := by decide

theorem test_decode_sti : decode 0xB004 = .sti 0 4 := by decide

theorem test_decode_jmp : decode 0xC1C0 = .jmp 7 ∧ decode 0xCFFF = .jmp 7 := by decide

theorem test_decode_res : decode 0xD000 = .res ∧ decode 0xDFFF = .res := by decide

theorem test_decode_lea : decode 0xE209 = .lea 1 9 := by decide

theorem test_decode_traps :
    decode 0xF020 = .trapGetc ∧ decode 0xF021 = .trapOut ∧ decode 0xF022 = .trapPuts ∧ decode 0xF023 = .trapIn ∧
      decode 0xF024 = .trapPutsp ∧ decode 0xF025 = .trapHalt ∧ decode 0xFF25 = .trapHalt := by decide

theorem test_decode_trapUndefined :
    decode 0xF000 = .trapUndefined 0 ∧ decode 0xF01F = .trapUndefined 0x1F ∧ decode 0xF026 = .trapUndefined 0x26 ∧
      decode 0xF0FF = .trapUndefined 0xFF := by decide

/-- A row with operand bits 0, as spec/opcode_table.json numbers them. -/
theorem test_decodeTableWord : decodeTableWord 16 0x1020 = some (.addImm 0 0 0) := by decide

/-- The assembler's Words of 95_test_vectors.md section 2.3. -/
theorem test_encode :
    encode (.addReg 0 1 2) = 0x1042 ∧ encode (.not 1 1) = 0x927F ∧ encode (.jsr 3) = 0x4803 ∧
      encode (.jmp 7) = 0xC1C0 ∧ encode (.sti 0 4) = 0xB004 ∧ encode (.trapUndefined 0x26) = 0xF026 := by decide

/-! ## Operands (95_test_vectors.md sections 2.1, 2.2) -/

theorem test_sext_5 : [0x00, 0x01, 0x0F, 0x10, 0x1F].map (sext 5) = [0x0000, 0x0001, 0x000F, 0xFFF0, 0xFFFF] := by
  decide

theorem test_sext_6 : [0x00, 0x1F, 0x20, 0x3F].map (sext 6) = [0x0000, 0x001F, 0xFFE0, 0xFFFF] := by decide

theorem test_sext_9 : [0x000, 0x0FF, 0x100, 0x1FD].map (sext 9) = [0x0000, 0x00FF, 0xFF00, 0xFFFD] := by decide

theorem test_sext_11 : [0x000, 0x3FF, 0x400, 0x7FF].map (sext 11) = [0x0000, 0x03FF, 0xFC00, 0xFFFF] := by decide

theorem test_condOf :
    [0x0000, 0x0001, 0x7FFF, 0x8000, 0xFFFF].map condOf = [.zero, .pos, .pos, .neg, .neg] := by decide

/-! ## ADD, AND, NOT (95_test_vectors.md section 2.4) -/

theorem test_addReg_wraps :
    (after (step (((start 0x3000 0x1042).setReg 1 0x1234).setReg 2 0xEDCC))).map (fun t => (t.reg 0, t.cond)) =
      some (0x0000, .zero) := by decide

theorem test_addReg_same_register :
    (after (step ((start 0x3000 0x1241).setReg 1 0x4001))).map (fun t => (t.reg 1, t.cond, t.pc)) =
      some (0x8002, .neg, 0x3001) := by decide

theorem test_addImm_negative :
    (after (step ((start 0x3000 0x1470).setReg 1 0x000F))).map (fun t => (t.reg 2, t.cond)) =
      some (0xFFFF, .neg) := by decide

theorem test_addImm_wraps :
    (after (step ((start 0x3000 0x146F).setReg 1 0xFFFF))).map (fun t => (t.reg 2, t.cond)) =
      some (0x000E, .pos) := by decide

theorem test_andReg :
    (after (step (((start 0x3000 0x5042).setReg 1 0xFF0F).setReg 2 0x0FF0))).map (fun t => (t.reg 0, t.cond)) =
      some (0x0F00, .pos) := by decide

theorem test_andImm_negative :
    (after (step ((start 0x3000 0x5470).setReg 1 0xABCD))).map (fun t => (t.reg 2, t.cond)) =
      some (0xABC0, .neg) := by decide

theorem test_not :
    (after (step ((start 0x3000 0x927F).setReg 1 0x8000))).map (fun t => (t.reg 1, t.cond)) =
      some (0x7FFF, .pos) := by decide

/-! ## Control transfer (95_test_vectors.md sections 2.5, 2.6) -/

theorem test_br_taken_backwards :
    (after (step ((start 0x3005 0x03FD).setCond .pos))).map (fun t => (t.pc, t.cond)) = some (0x3003, .pos) := by decide

theorem test_br_not_taken :
    (after (step ((start 0x3005 0x03FD).setCond .zero))).map (fun t => t.pc) = some 0x3006 := by decide

/-- The whole table of masks and flags. -/
theorem test_brTaken :
    [Cond.neg, .zero, .pos].map (fun c =>
        [brTaken false false false c, brTaken false false true c, brTaken false true false c, brTaken false true true c,
          brTaken true false false c, brTaken true false true c, brTaken true true false c, brTaken true true true c]) =
      [[false, false, false, false, true, true, true, true], [false, false, true, true, false, false, true, true],
        [false, true, false, true, false, true, false, true]] := by decide

theorem test_jmp :
    (after (step (((start 0x3000 0xC080).setReg 2 0x4000).setReg 7 0x1111))).map (fun t => (t.pc, t.reg 7)) =
      some (0x4000, 0x1111) := by decide

theorem test_jsr_wraps :
    (after (step (start 0x0010 0x4FE0))).map (fun t => (t.pc, t.reg 7)) = some (0xFFF1, 0x0011) := by decide

theorem test_jsr_farthest :
    (after (step (start 0x3000 0x4C00))).map (fun t => (t.pc, t.reg 7)) = some (0x2C01, 0x3001) := by decide

theorem test_jsrr :
    (after (step ((start 0x3000 0x40C0).setReg 3 0x5000))).map (fun t => (t.pc, t.reg 7)) =
      some (0x5000, 0x3001) := by decide

theorem test_jsrr_r7 :
    (after (step ((start 0x3000 0x41C0).setReg 7 0x5000))).map (fun t => (t.pc, t.reg 7)) =
      some (0x3001, 0x3001) := by decide

/-! ## Loads, stores, LEA (95_test_vectors.md section 2.7) -/

theorem test_ld :
    (after (step ((start 0x3000 0x2004).memWrite 0x3005 0xF025))).map (fun t => (t.reg 0, t.cond)) =
      some (0xF025, .neg) := by decide

theorem test_ld_its_own_word :
    (after (step (start 0x3000 0x21FF))).map (fun t => (t.reg 0, t.cond)) = some (0x21FF, .pos) := by decide

theorem test_ldi :
    (after (step (((start 0x3000 0xA006).setReg 0 0x1111).memWrite 0x3007 0x4000))).map (fun t => (t.reg 0, t.cond)) =
      some (0x0000, .zero) := by decide

theorem test_ldr_same_register :
    (after (step (((start 0x3000 0x6240).setReg 1 0x300A).memWrite 0x300A 0x8001))).map (fun t => (t.reg 1, t.cond)) =
      some (0x8001, .neg) := by decide

theorem test_ldr_wraps :
    (after (step ((start 0x3000 0x647F).memWrite 0xFFFF 0x0005))).map (fun t => t.reg 2) = some 0x0005 := by decide

theorem test_lea :
    (after (step (start 0x8000 0xE200))).map (fun t => (t.reg 1, t.cond)) = some (0x8001, .neg) := by decide

theorem test_lea_wraps :
    (after (step (start 0xFFFF 0xE200))).map (fun t => (t.reg 1, t.cond, t.pc)) = some (0x0000, .zero, 0x0000) := by
  decide

theorem test_st :
    (after (step (((start 0x3006 0x3001).setReg 0 0x000F).setCond .neg))).map (fun t => (t.word 0x3008, t.cond)) =
      some (0x000F, .neg) := by decide

theorem test_sti :
    (after (step (((start 0x3001 0xB004).setReg 0 0xF025).memWrite 0x3006 0x3003))).map
        (fun t => (t.word 0x3003, t.word 0x3006)) =
      some (0xF025, 0x3003) := by decide

theorem test_str :
    (after (step (((start 0x3000 0x7440).setReg 1 0x300A).setReg 2 0xFFFB))).map (fun t => t.word 0x300A) =
      some 0xFFFB := by decide

theorem test_str_base_is_source :
    (after (step ((start 0x3000 0x7240).setReg 1 0x4000))).map (fun t => t.word 0x4000) = some 0x4000 := by decide

/-! ## The keyboard intercept (95_test_vectors.md section 2.8) -/

theorem test_kbsr_no_input :
    let r := ((State.reset.memWrite 0xFE00 0x1234).memWrite 0xFE02 0x0055).memRead 0xFE00
    r.1 = 0x0000 ∧ r.2.word 0xFE00 = 0x0000 ∧ r.2.word 0xFE02 = 0x0055 ∧ r.2.kbq = [] := by decide

theorem test_kbsr_input :
    let r := (State.reset.setKbq [0x41, 0x42]).memRead 0xFE00
    r.1 = 0x8000 ∧ r.2.word 0xFE00 = 0x8000 ∧ r.2.word 0xFE02 = 0x0041 ∧ r.2.kbq = [0x42] := by decide

/-! ## Traps (95_test_vectors.md section 2.9) -/

theorem test_getc_never_negative :
    (after (step ((start 0x3000 0xF020).setKbq [0xFF]))).map (fun t => (t.reg 0, t.cond, t.kbq, t.conout)) =
      some (0x00FF, .pos, [], []) := by decide

theorem test_getc_waits : after (step (start 0x3000 0xF020)) = some (start 0x3000 0xF020) := by decide

theorem test_out :
    (after (step ((start 0x3000 0xF021).setReg 0 0x0141))).map (fun t => (t.conout, t.reg 0, t.reg 7)) =
      some ([.byte 0x41, .flush], 0x0141, 0x3001) := by decide

theorem test_puts :
    (after (step ((((start 0x3000 0xF022).setReg 0 0x4000).memWrite 0x4000 0x4100).memWrite 0x4001 0xFF42))).map
        (fun t => (t.conout, t.reg 0)) =
      some ([.byte 0x00, .byte 0x42, .flush], 0x4000) := by decide

theorem test_puts_polls :
    (after (step (((((start 0x3000 0xF022).setReg 0 0xFDFF).memWrite 0xFDFF 0x0041).memWrite 0xFE00 0x0042).setKbq
        [0x58]))).map (fun t => (t.conout, t.word 0xFE00, t.word 0xFE02, t.kbq)) =
      some ([.byte 0x41, .byte 0x00, .flush], 0x8000, 0x0058, []) := by decide

theorem test_in :
    (after (step ((start 0x3000 0xF023).setKbq [0x7A]))).map (fun t => (t.reg 0, t.cond, t.conout.drop 19)) =
      some (0x007A, .pos, [.byte 0x7A, .flush]) := by decide

theorem test_putsp :
    (after (step (((((start 0x3000 0xF024).setReg 0 0x3003).memWrite 0x3003 0x6548).memWrite 0x3004 0x6C6C).memWrite
        0x3005 0x006F))).map (fun t => t.conout) =
      some [.byte 0x48, .byte 0x65, .byte 0x6C, .byte 0x6C, .byte 0x6F, .flush] := by decide

theorem test_putsp_low_byte_always :
    (after (step (((start 0x3000 0xF024).setReg 0 0x4000).memWrite 0x4000 0x4100))).map (fun t => t.conout) =
      some [.byte 0x00, .byte 0x41, .flush] := by decide

theorem test_halt :
    (after (step (start 0x3000 0xF025))).map (fun t => (t.run, t.reg 7, t.pc, t.conout)) =
      some (.halted, 0x3001, 0x3001, []) := by decide

theorem test_trapUndefined :
    (after (step (start 0x3000 0xF026))).map (fun t => (t.run, t.reg 7)) =
      some (.faulted .illegalTrapVector 0x26, 0x3001) := by decide

/-! ## RTI, RES, cancellation (95_test_vectors.md section 2.10) -/

theorem test_rti :
    (after (step ((start 0x3001 0x8000).setReg 7 0x1111))).map (fun t => (t.pc, t.run, t.reg 7)) =
      some (0x3002, .faulted .illegalOpcode 0x8000, 0x1111) := by decide

theorem test_res :
    (after (step (start 0x3000 0xDFFF))).map (fun t => (t.pc, t.run)) =
      some (0x3001, .faulted .illegalOpcode 0xDFFF) := by decide

theorem test_cancel :
    after (step ((start 0x3000 0x8000).setCancelReq true)) =
      some (((start 0x3000 0x8000).setCancelReq true).setRun .cancelled) := by decide

/-! ## Reset and the fetch (95_test_vectors.md P7) -/

/-- P7 (a): the second image goes over the first, and the first image's origin does not move `pc`. -/
theorem test_reset_images :
    let s := State.resetWith [⟨0x2FFF, [0x1111, 0x1021, 0x2222]⟩, ⟨0x3001, [0xF025]⟩]
    s.word 0x2FFF = 0x1111 ∧ s.word 0x3000 = 0x1021 ∧ s.word 0x3001 = 0xF025 ∧ s.pc = 0x3000 := by decide

/-- P7 (d): a fetch at KBSR with input runs RTI. -/
theorem test_fetch_kbsr :
    (after (step ((State.reset.setPc 0xFE00).setKbq [0x78]))).map
        (fun t => (t.run, t.pc, t.word 0xFE00, t.word 0xFE02)) =
      some (.faulted .illegalOpcode 0x8000, 0xFE01, 0x8000, 0x0078) := by decide

theorem test_reset_memory_canonical : State.reset.mem.wf := by decide

/-- The table's Words are the very next instruction: one with no input, one that takes a byte. -/
theorem test_withFetchWord :
    (after (step (State.reset.withFetchWord 16 0x1025))).map (fun t => t.reg 0) = some 5 ∧
      (after (step (State.reset.withFetchWord 16 0xF020))).map (fun t => t.reg 0) = some 0x41 := by decide

/-! ## Witnesses: the hypotheses of each statement, met together -/

/-- The reset state with a listed Word, an input byte and a pointer to KBSR in memory. -/
def busy : State := ((State.reset.memWrite 0x4000 0x1234).memWrite 0x3001 0xFE00).setKbq [0x41]

/-- The vectors next to the six routines, and the first and the last. -/
theorem witness_DecodingAnEncodedInstructionGivesItBack :
    ∀ v ∈ [0x00#8, 0x1F#8, 0x26#8, 0xFF#8], (Instr.trapUndefined v).wellFormed = true := by decide

theorem witness_AWordInARowDecodesToThatRow :
    ∃ (w : Word) (i : Instr), (∀ v, i ≠ .trapUndefined v) ∧ w &&& (tableRow i).2 = (tableRow i).1 :=
  ⟨0xFF25, .trapHalt, nofun, by decide⟩

theorem witness_IgnoredBitsTakeNoPartInDecoding :
    (0x1042 : Word) &&& usedBits (decode 0x1042) = 0x105A &&& usedBits (decode 0x1042) ∧ (0x1042 : Word) ≠ 0x105A := by
  decide

/-- Both clauses of the value, at the values where they meet. -/
theorem witness_SignExtensionFillsTheHigherBits :
    (5 ∈ [5, 6, 9, 11] ∧ (0x0F#5).getLsbD (5 - 1) = false ∧ (0x10#5).getLsbD (5 - 1) = true) ∧
      (11 ∈ [5, 6, 9, 11] ∧ (0x3FF#11).getLsbD (11 - 1) = false ∧ (0x400#11).getLsbD (11 - 1) = true) := by decide

theorem witness_StepRunsTheInstructionAtPc :
    ∃ (s : State) (i : Instr), s.run = .running ∧ s.cancelReq = false ∧ s.pc ≠ config.kbsrAddr ∧
      decode (s.word s.pc) = i ∧ i.wellFormed = true ∧ (takesInput i = true → s.kbq ≠ []) :=
  ⟨start 0x3000 0x1042, .addReg 0 1 2, by decide⟩

theorem witness_StepRunsTheInstructionAtPc_getc :
    ∃ s : State, s.run = .running ∧ s.cancelReq = false ∧ s.pc ≠ config.kbsrAddr ∧
      decode (s.word s.pc) = .trapGetc ∧ Instr.trapGetc.wellFormed = true ∧ takesInput .trapGetc = true ∧ s.kbq ≠ [] :=
  ⟨(start 0x3000 0xF020).setKbq [0x41], by decide⟩

theorem witness_FetchFromKbsrPollsTheKeyboard :
    ∃ s : State, s.mem.wf ∧ s.run = .running ∧ s.cancelReq = false ∧ s.pc = config.kbsrAddr ∧ s.kbq = [] :=
  ⟨start 0xFE00 0x1042, by decide⟩

theorem witness_FetchFromKbsrPollsTheKeyboard_input :
    ∃ s : State, s.mem.wf ∧ s.run = .running ∧ s.cancelReq = false ∧ s.pc = config.kbsrAddr ∧ s.kbq ≠ [] :=
  ⟨(start 0xFE00 0x1042).setKbq [0x41], by decide⟩

theorem witness_CancellationIsSampledBeforeTheFetch : ∃ s : State, s.run = .running ∧ s.cancelReq = true :=
  ⟨(start 0x3000 0xF020).requestCancel, by decide⟩

theorem witness_GetcAndInWaitForAByte :
    ∃ s : State, s.run = .running ∧ s.cancelReq = false ∧ s.pc ≠ config.kbsrAddr ∧ s.kbq = [] ∧
      s.word s.pc &&& 0xF0FF = 0xF020 :=
  ⟨start 0x3000 0xFF20, by decide⟩

theorem witness_GetcAndInWaitForAByte_in :
    ∃ s : State, s.run = .running ∧ s.cancelReq = false ∧ s.pc ≠ config.kbsrAddr ∧ s.kbq = [] ∧
      s.word s.pc &&& 0xF0FF = 0xF023 :=
  ⟨start 0xFFFF 0xF023, by decide⟩

theorem witness_AByteLiftsTheWait : ∃ s : State, s.run = .running ∧ s.cancelReq = false ∧ s.awaitsInput = true :=
  ⟨start 0x3000 0xF023, by decide⟩

theorem witness_GetcAndInHaveNoResultWithoutAByte : State.reset.kbq = [] := rfl

/-- The three terminal run states. -/
theorem witness_AnEndedRunIsFrozen :
    ∀ r ∈ [RunState.halted, .faulted .illegalOpcode 0xD000, .cancelled], (State.reset.setRun r).ended := by
  simp [State.ended]

theorem witness_AnEndedRunStaysEnded :
    ∃ s t : State, s.ended ∧ Follows s t :=
  ⟨busy.setRun .halted, _, by simp [State.ended], [.coreStep, .input 0x42, .cancel, .coreStep], rfl⟩

/-- Each of the six ways a step can leave `run`. -/
theorem witness_RunLeavesRunningOnlyAsListed :
    (∃ s t : State, s.run = .running ∧ step s = .next t ∧ s.cancelReq = true) ∧
    (∃ s t : State, s.run = .running ∧ step s = .next t ∧ s.cancelReq = false ∧ s.awaitsInput = true) ∧
    (∃ s t : State, s.run = .running ∧ step s = .next t ∧ s.cancelReq = false ∧ s.awaitsInput = false ∧
      decode s.fetch.ir = .trapHalt) ∧
    (∃ s t : State, s.run = .running ∧ step s = .next t ∧ s.cancelReq = false ∧ s.awaitsInput = false ∧
      decode s.fetch.ir = .rti) ∧
    (∃ s t : State, s.run = .running ∧ step s = .next t ∧ s.cancelReq = false ∧ s.awaitsInput = false ∧
      decode s.fetch.ir = .trapUndefined 0x26) ∧
    ∃ s t : State, s.run = .running ∧ step s = .next t ∧ s.cancelReq = false ∧ s.awaitsInput = false ∧
      endsRun (decode s.fetch.ir) = false :=
  ⟨⟨(start 0x3000 0xF025).requestCancel, _, rfl, rfl, rfl⟩, ⟨start 0x3000 0xF020, _, rfl, rfl, rfl, by decide⟩,
    ⟨start 0x3000 0xF025, _, rfl, rfl, rfl, by decide⟩, ⟨start 0x3000 0x8000, _, rfl, rfl, rfl, by decide⟩,
    ⟨start 0x3000 0xF026, _, rfl, rfl, rfl, by decide⟩, ⟨start 0x3000 0x1042, _, rfl, rfl, rfl, by decide⟩⟩

theorem witness_EveryStepHasANextState : busy.mem.wf ∧ busy.mem ≠ [] := by decide

theorem witness_EveryStepKeepsTheMachineSound : ∃ s t : State, s.sound ∧ step s = .next t :=
  ⟨busy, _, ⟨by decide, trivial⟩, rfl⟩

/-- A faulted machine that is sound, its record about an undefined vector. -/
theorem witness_SoundMachinesStaySoundAndGoOn :
    ∃ s : State, s.sound ∧ s.run = .faulted .illegalTrapVector 0x26 :=
  ⟨(((busy.setReg 7 0x3001).setPc 0x3001).setIr 0xFF26).setRun (.faulted .illegalTrapVector 0x26),
    ⟨by decide, 0x26, by decide, by decide, by decide, by decide⟩, rfl⟩

theorem witness_ConsoleStreamsMoveForward : ∃ s t : State, step s = .next t ∧ t.conout ≠ s.conout ∧ t.kbq ≠ s.kbq :=
  ⟨(start 0x3000 0xF023).setKbq [0x41], _, rfl, by decide, by decide⟩

/-- A Word in an image and one outside it, at the last address of memory. -/
theorem witness_ResetZeroFillsAndLoadsImagesInOrder :
    ∃ (i : Image) (a b : Word), (i.origin.toNat ≤ a.toNat ∧ a.toNat - i.origin.toNat < i.words.length) ∧
      ¬(i.origin.toNat ≤ b.toNat ∧ b.toNat - i.origin.toNat < i.words.length) :=
  ⟨⟨0xFFFF, [0x1111, 0x2222]⟩, 0xFFFF, 0x0000, by decide⟩

theorem witness_SetccSetsTheFlagOfTheValue :
    ∃ (i : Instr) (s t : State) (r : Reg), flagReg i = some r ∧ exec i s = .next t :=
  ⟨.not 1 2, busy, _, 1, rfl, rfl⟩

/-- Both cases of each clause: a flag-setting instruction and another. -/
theorem witness_OnlyFlagSettersWriteAndOnlyBrReadsTheFlag :
    (∃ (i : Instr) (s t : State), (∀ n z p off, i ≠ .br n z p off) ∧ exec i s = .next t ∧ flagReg i = some 1) ∧
    ∃ (i : Instr) (s t : State), (∀ n z p off, i ≠ .br n z p off) ∧ exec i s = .next t ∧ flagReg i = none :=
  ⟨⟨.not 1 2, busy, _, nofun, rfl, rfl⟩, ⟨.trapOut, busy, _, nofun, rfl, rfl⟩⟩

/-- KBSR with input and without, and an address that is not KBSR. -/
theorem witness_ReadsPollOnlyAtKbsr :
    (busy.mem.wf ∧ busy.kbq ≠ []) ∧ (State.reset.mem.wf ∧ State.reset.kbq = []) ∧
      (0xFE01 : Word) ≠ config.kbsrAddr := by decide

/-- With no input and with input. -/
theorem witness_StoresAreOrdinaryEverywhere :
    (∃ s : State, s.mem.wf ∧ s.mem ≠ [] ∧ s.kbq = []) ∧ ∃ s : State, s.mem.wf ∧ s.mem ≠ [] ∧ s.kbq ≠ [] :=
  ⟨⟨busy.setKbq [], by decide⟩, ⟨busy, by decide⟩⟩

/-- ST, STR and STI, each storing where `pc` stands. -/
theorem witness_AStoreIsSeenByTheNextFetch :
    ∀ i ∈ [Instr.st 0 0, .str 0 1 0, .sti 0 1], ∃ (s t : State) (r : Reg) (a : Word), s.mem.wf ∧ exec i s = .next t ∧
      storedReg i = some r ∧ storeAddress i s = some a ∧ t.pc = a ∧ a ≠ config.kbsrAddr := by
  intro i hi
  refine ⟨((State.reset.memWrite 0x3001 0x3000).setReg 0 0xF025).setReg 1 0x3000, ?_⟩
  fin_cases hi
  · exact ⟨_, 0, 0x3000, by decide, rfl, rfl, rfl, rfl, by decide⟩
  · exact ⟨_, 0, 0x3000, by decide, rfl, rfl, rfl, rfl, by decide⟩
  · exact ⟨_, 0, 0x3000, by decide, rfl, rfl, by decide, rfl, by decide⟩

theorem witness_LoadsGiveBackWhatStoresPut :
    (∃ (s t u : State) (sr dr : Reg) (off off' : BitVec 9) (p : Word), s.mem.wf ∧ s.pcRel9 off ≠ config.kbsrAddr ∧
      exec (.st sr off) s = .next t ∧ (t.setPc p).pcRel9 off' = s.pcRel9 off ∧
      exec (.ld dr off') (t.setPc p) = .next u) ∧
    ∃ (s t u : State) (sr dr : Reg) (off off' : BitVec 9) (p : Word), s.mem.wf ∧ s.pcRel9 off ≠ config.kbsrAddr ∧
      s.word (s.pcRel9 off) ≠ config.kbsrAddr ∧ s.word (s.pcRel9 off) ≠ s.pcRel9 off ∧
      exec (.sti sr off) s = .next t ∧ (t.setPc p).pcRel9 off' = s.pcRel9 off ∧
      exec (.ldi dr off') (t.setPc p) = .next u :=
  ⟨⟨busy, _, _, 1, 2, 4, 3, 0x3001, by decide, by decide, rfl, by decide, rfl⟩,
    ⟨busy, _, _, 1, 2, 4, 3, 0x3001, by decide, by decide, by decide, by decide, rfl, by decide, rfl⟩⟩

/-- A next state for each constructor: the frames speak of every one. -/
theorem witness_OnlyTheListedRegistersAreWritten :
    ∀ i ∈ [Instr.br true true true 1, .addReg 1 2 3, .addImm 1 2 3, .ld 1 0, .st 1 0, .jsr 1, .jsrr 1, .andReg 1 2 3,
      .andImm 1 2 3, .ldr 1 2 3, .str 1 2 3, .rti, .not 1 2, .ldi 1 1, .sti 1 1, .jmp 1, .res, .lea 1 1, .trapGetc,
      .trapOut, .trapPuts, .trapIn, .trapPutsp, .trapHalt, .trapUndefined 0x26], (after (exec i busy)).isSome = true := by
  decide

theorem witness_OnlyTransfersWritePcAndOnlyEndsWriteRun :
    (∃ s t : State, exec .trapOut s = .next t ∧ writesPc .trapOut = false ∧ endsRun .trapOut = false) ∧
      ∃ s t : State, exec .trapHalt s = .next t ∧ writesPc .trapHalt = false ∧ endsRun .trapHalt = true :=
  ⟨⟨busy, _, rfl, rfl, rfl⟩, ⟨busy, _, rfl, rfl, rfl⟩⟩

/-- The Words next to the keyboard words, for a form that polls; and a Word next to the stored one. -/
theorem witness_OnlyTheStoreAddressAndPollsChangeMemory :
    (∃ (i : Instr) (s t : State) (x : Word), s.mem.wf ∧ exec i s = .next t ∧ storeAddress i s ≠ some x ∧
      readsMemory i = true ∧ x ≠ config.kbsrAddr ∧ x ≠ config.kbdrAddr) ∧
    ∃ (i : Instr) (s t : State) (x : Word), s.mem.wf ∧ exec i s = .next t ∧ storeAddress i s = some (x + 1) ∧
      storeAddress i s ≠ some x ∧ readsMemory i = false :=
  ⟨⟨.ldi 1 1, busy, _, 0xFE01, by decide, rfl, by decide, rfl, by decide⟩,
    ⟨.st 1 0, busy, _, 0x2FFF, by decide, rfl, by decide, by decide, rfl⟩⟩

theorem witness_OnlyConsoleRoutinesUseTheConsole :
    (∃ s t : State, exec .trapGetc s = .next t ∧ writesConsole .trapGetc = false ∧ s.kbq ≠ []) ∧
      ∃ s t : State, exec .trapOut s = .next t ∧ takesInput .trapOut = false ∧ readsMemory .trapOut = false ∧
        s.kbq ≠ [] :=
  ⟨⟨busy, _, rfl, rfl, by decide⟩, ⟨busy, _, rfl, rfl, rfl, by decide⟩⟩

theorem witness_TrapRoutinesChangeOnlyR0R7AndTheFlag :
    (∃ s t : State, isTrap .trapGetc = true ∧ exec .trapGetc s = .next t) ∧
      ∃ (i : Instr) (s t : State), isTrap i = true ∧ exec i s = .next t ∧ i ≠ .trapGetc ∧ i ≠ .trapIn :=
  ⟨⟨busy, _, rfl, rfl⟩, ⟨.trapHalt, busy, _, rfl, rfl, by decide, by decide⟩⟩

/-- LD and LDR of KBSR with input there, and of an ordinary Word. -/
theorem witness_LdAndLdrLoadTheWordAndItsFlag :
    ∃ s : State, s.mem.wf ∧ s.kbq ≠ [] ∧ s.pc + sext 9 0 = config.kbsrAddr ∧ s.reg 1 + sext 6 0 = 0x4000 ∧
      s.word 0x4000 = 0x1234 :=
  ⟨(busy.setPc 0xFE00).setReg 1 0x4000, by decide⟩

/-- A pointer that is read from memory and is KBSR's address; and a pointer that is read from KBSR itself. -/
theorem witness_LdiLoadsThroughItsPointer :
    (∃ s : State, s.mem.wf ∧ s.pc + sext 9 1 ≠ config.kbsrAddr ∧ s.readValue (s.pc + sext 9 1) = config.kbsrAddr ∧
      s.kbq ≠ []) ∧
      ∃ s : State, s.mem.wf ∧ s.pc + sext 9 1 = config.kbsrAddr ∧ s.kbq ≠ [] :=
  ⟨⟨busy, by decide⟩, ⟨busy.setPc 0xFDFF, by decide⟩⟩

theorem witness_StAndStrStoreTheRegister : busy.mem.wf ∧ busy.word 0x4000 ≠ busy.reg 1 := by decide

theorem witness_StiStoresThroughItsPointer :
    (∃ s : State, s.mem.wf ∧ s.pc + sext 9 1 ≠ config.kbsrAddr ∧ s.readValue (s.pc + sext 9 1) = config.kbsrAddr ∧
      s.kbq ≠ []) ∧
      ∃ s : State, s.mem.wf ∧ s.pc + sext 9 1 = config.kbsrAddr ∧ s.kbq = [] :=
  ⟨⟨busy, by decide⟩, ⟨(busy.setKbq []).setPc 0xFDFF, by decide⟩⟩

/-- Both cases of the flag. -/
theorem witness_GetcTakesAByteIntoR0 :
    (∃ (s : State) (b : Byte) (q : List Byte), s.kbq = b :: q ∧ b = 0) ∧
      ∃ (s : State) (b : Byte) (q : List Byte), s.kbq = b :: q ∧ b ≠ 0 :=
  ⟨⟨State.reset.setKbq [0x00, 0x31], 0x00, [0x31], rfl, rfl⟩, ⟨busy, 0x41, [], rfl, by decide⟩⟩

theorem witness_InPromptsTakesAndEchoesAByte :
    (∃ (s : State) (b : Byte) (q : List Byte), s.kbq = b :: q ∧ b = 0) ∧
      ∃ (s : State) (b : Byte) (q : List Byte), s.kbq = b :: q ∧ b ≠ 0 :=
  ⟨⟨State.reset.setKbq [0x00, 0x31], 0x00, [0x31], rfl, rfl⟩, ⟨busy, 0x41, [], rfl, by decide⟩⟩

/-- A string of two Words that wraps past the last address; only the second has a high byte. -/
def text : State := ((busy.setReg 0 0xFFFF).memWrite 0xFFFF 0x0041).memWrite 0x0000 0x4200

def textWords : List Word := [0x0041, 0x4200]

theorem text_wf : text.mem.wf := by decide

theorem text_words : ∀ (k : Nat) (h : k < textWords.length), text.word (text.reg 0 + BitVec.ofNat 16 k) = textWords[k]
  | 0, _ => show text.word (text.reg 0 + 0#16) = 0x0041 by decide
  | 1, _ => show text.word (text.reg 0 + 1#16) = 0x4200 by decide

theorem text_end : text.word (text.reg 0 + BitVec.ofNat 16 textWords.length) = 0x0000 := by decide

theorem text_before_kbsr : ∀ k ≤ textWords.length, text.reg 0 + BitVec.ofNat 16 k ≠ config.kbsrAddr
  | 0, _ => by decide
  | 1, _ => by decide
  | 2, _ => by decide

/-- That string, and the empty one. -/
theorem witness_PutsWritesTheLowByteOfEachWord :
    (∃ (s : State) (ws : List Word), s.mem.wf ∧ (∀ w ∈ ws, w ≠ 0x0000) ∧
      (∀ (k : Nat) (h : k < ws.length), s.word (s.reg 0 + BitVec.ofNat 16 k) = ws[k]) ∧
      s.word (s.reg 0 + BitVec.ofNat 16 ws.length) = 0x0000 ∧
      (∀ k ≤ ws.length, s.reg 0 + BitVec.ofNat 16 k ≠ config.kbsrAddr) ∧ ws ≠ []) ∧
    ∃ s : State, s.mem.wf ∧ s.word (s.reg 0 + 0x0000) = 0x0000 ∧ s.reg 0 + 0x0000 ≠ config.kbsrAddr :=
  ⟨⟨text, textWords, text_wf, by simp [textWords], text_words, text_end, text_before_kbsr, by decide⟩,
    ⟨busy.setReg 0 0x5000, by decide⟩⟩

/-- As for PUTS; the two Words are the two cases of the high byte. -/
theorem witness_PutspWritesBothBytesOfEachWord :
    ∃ (s : State) (ws : List Word), s.mem.wf ∧ (∀ w ∈ ws, w ≠ 0x0000) ∧
      (∀ (k : Nat) (h : k < ws.length), s.word (s.reg 0 + BitVec.ofNat 16 k) = ws[k]) ∧
      s.word (s.reg 0 + BitVec.ofNat 16 ws.length) = 0x0000 ∧
      (∀ k ≤ ws.length, s.reg 0 + BitVec.ofNat 16 k ≠ config.kbsrAddr) ∧
      ws.map (fun w => w.toNat / 256) = [0x00, 0x42] :=
  ⟨text, textWords, text_wf, by simp [textWords], text_words, text_end, text_before_kbsr, by decide⟩

/-- A string that runs into KBSR with input there. -/
theorem witness_StringRoutinesAlwaysEnd :
    ∃ s : State, s.mem.wf ∧ s.reg 0 = config.kbsrAddr ∧ s.kbq ≠ [] ∧
      (Instr.trapPuts = .trapPuts ∨ Instr.trapPuts = .trapPutsp) :=
  ⟨busy.setReg 0 0xFE00, by decide⟩

theorem witness_UndefinedTrapVectorsFault :
    ∀ v ∈ [0x00#8, 0x1F#8, 0x26#8, 0xFF#8], v.toNat < 0x20 ∨ 0x25 < v.toNat := by decide

theorem witness_RtiAndResFault : ∀ i ∈ [Instr.rti, .res], i = .rti ∨ i = .res := by decide

end Sys2Proof.Tests
end

section
/-!
PROOFS. The state after reset (10_state.md R23, R26, R29) and who writes and reads the condition flag (R27).

The idea for the flag: apart from BR, an instruction looks at the state only through operations that commute with
`State.setCond`. One that ends in `State.setRegCC` overwrites the flag; any other hands on whatever flag it was given,
the one it found included.
-/

namespace Sys2Proof.Machine

/-! Reset -/

@[simp] theorem State.reg_reset (r : Reg) : State.reset.reg r = 0x0000 := by
  simp [State.reg, State.reset, Vector.get_eq_getElem]

@[simp] theorem State.reg_resetWith (images : List Image) (r : Reg) : (State.resetWith images).reg r = 0x0000 := by
  simp [State.resetWith]

@[simp] theorem State.pc_resetWith (images : List Image) : (State.resetWith images).pc = 0x3000 := rfl

@[simp] theorem State.cond_resetWith (images : List Image) : (State.resetWith images).cond = .zero := rfl

/-- Settles O20: loading images writes memory only, so the three fields are those of the reset with no image. -/
theorem resetLeavesRegistersPcAndFlag : Obligations.ResetLeavesRegistersPcAndFlag :=
  fun images => ⟨State.reg_resetWith images, State.pc_resetWith images, State.cond_resetWith images⟩

/-! The shared operations commute with a change of the flag. -/

theorem State.pcRel9_setCond (s : State) (c : Cond) (off : BitVec 9) : (s.setCond c).pcRel9 off = s.pcRel9 off := rfl

/-- The flag that stood before a flagged register write is lost. -/
theorem State.setRegCC_setCond (s : State) (c : Cond) (r : Reg) (v : Word) :
    (s.setCond c).setRegCC r v = s.setRegCC r v := rfl

theorem State.linkR7_setCond (s : State) (c : Cond) : (s.setCond c).linkR7 = s.linkR7.setCond c := rfl

theorem State.memWrite_setCond (s : State) (c : Cond) (a v : Word) :
    (s.setCond c).memWrite a v = (s.memWrite a v).setCond c := rfl

theorem State.conOutAll_setCond (s : State) (c : Cond) (bs : List Byte) :
    (s.setCond c).conOutAll bs = (s.conOutAll bs).setCond c := by
  simp only [State.conOutAll_eq]
  rfl

theorem State.kbdTake_setCond (s : State) (c : Cond) :
    (s.setCond c).kbdTake = s.kbdTake.map fun r => (r.1, r.2.setCond c) := by
  cases hq : s.kbq with
  | nil => rw [State.kbdTake_nil hq, State.kbdTake_nil (s := s.setCond c) hq]; rfl
  | cons b q => rw [State.kbdTake_cons hq, State.kbdTake_cons (s := s.setCond c) hq]; rfl

theorem State.pollKeyboard_setCond (s : State) (c : Cond) :
    (s.setCond c).pollKeyboard = s.pollKeyboard.setCond c := by
  rcases s.pollKeyboard_cases with ⟨hq, e⟩ | ⟨b, q, hq, e⟩ <;> rw [e]
  · exact State.pollKeyboard_nil hq
  · exact State.pollKeyboard_cons hq

/-- A read answers the same Word whatever the flag is. -/
theorem State.memRead_setCond (s : State) (c : Cond) (a : Word) :
    (s.setCond c).memRead a = ((s.memRead a).1, (s.memRead a).2.setCond c) := by
  by_cases h : a = config.kbsrAddr
  · subst h
    simp only [State.memRead_kbsr, State.pollKeyboard_setCond, State.word_setCond]
  · simp only [State.memRead_of_ne h, State.word_setCond]

theorem State.loadTo_setCond (s : State) (c : Cond) (r : Reg) (a : Word) :
    (s.setCond c).loadTo r a = s.loadTo r a := by
  simp only [State.loadTo, State.memRead_setCond, State.setRegCC_setCond]

theorem stringWalk_setCond (chars : Word → List Byte) (fuel : Nat) (a : Word) (s : State) (c : Cond) :
    stringWalk chars fuel a (s.setCond c) = (stringWalk chars fuel a s).map (·.setCond c) := by
  induction fuel generalizing a s with
  | zero => rfl
  | succ fuel ih =>
    simp only [stringWalk, State.memRead_setCond]
    split
    · rfl
    · rw [State.conOutAll_setCond, ih]

theorem State.putString_setCond {s t : State} {chars : Word → List Byte} (h : s.putString chars = .next t) (c : Cond) :
    (s.setCond c).putString chars = .next (t.setCond c) := by
  obtain ⟨u, rfl, hu⟩ := State.putString_next h
  simp only [State.putString, State.kbq_setCond, State.reg_setCond, stringWalk_setCond, hu, Option.map_some]
  rfl

/-! The meanings that read memory or take input. -/

theorem execLdi_setCond (r : Reg) (off : BitVec 9) (s : State) (c : Cond) :
    execLdi r off (s.setCond c) = execLdi r off s := by
  simp only [execLdi, State.pcRel9_setCond, State.memRead_setCond, State.loadTo_setCond]

theorem execSti_setCond {r : Reg} {off : BitVec 9} {s t : State} (h : execSti r off s = .next t) (c : Cond) :
    execSti r off (s.setCond c) = .next (t.setCond c) := by
  obtain rfl := Host.Outcome.next.inj h
  simp only [execSti, State.pcRel9_setCond, State.memRead_setCond, State.reg_setCond, State.memWrite_setCond]

theorem execTrapGetc_setCond (s : State) (c : Cond) : execTrapGetc (s.setCond c) = execTrapGetc s := by
  simp only [execTrapGetc, State.linkR7_setCond, State.kbdTake_setCond]
  cases s.linkR7.kbdTake <;> rfl

theorem execTrapIn_setCond (s : State) (c : Cond) : execTrapIn (s.setCond c) = execTrapIn s := by
  simp only [execTrapIn, State.linkR7_setCond, State.conOutAll_setCond, State.kbdTake_setCond]
  cases (s.linkR7.conOutAll config.inPrompt).kbdTake <;> rfl

/-! Every instruction and the flag. -/

/-- A flag-setting instruction ends by writing its register together with the flag of the value written. -/
theorem exec_eq_setRegCC {i : Instr} {r : Reg} {s t : State} (hr : flagReg i = some r) (h : exec i s = .next t) :
    ∃ (u : State) (v : Word), t = u.setRegCC r v := by
  cases i <;> cases hr
  case trapGetc.refl =>
    obtain ⟨b, q, -, rfl⟩ := execTrapGetc_next h
    exact ⟨_, _, rfl⟩
  case trapIn.refl =>
    obtain ⟨b, q, -, rfl⟩ := execTrapIn_next h
    exact ⟨_, _, rfl⟩
  all_goals
    obtain rfl := Host.Outcome.next.inj h
    exact ⟨_, _, rfl⟩

theorem cond_exec_of_flagReg_some {i : Instr} {r : Reg} {s t : State} (hr : flagReg i = some r)
    (h : exec i s = .next t) : t.cond = condOf (t.reg r) := by
  obtain ⟨u, v, rfl⟩ := exec_eq_setRegCC hr h
  rw [State.cond_setRegCC, State.reg_setRegCC, if_pos rfl]

/-- A flag-setting instruction does not read the flag it overwrites. -/
theorem exec_setCond_of_flagReg_some {i : Instr} {r : Reg} (hr : flagReg i = some r) (s : State) (c : Cond) :
    exec i (s.setCond c) = exec i s := by
  cases i <;> cases hr
  case ld.refl => exact congrArg Host.Outcome.next (State.loadTo_setCond ..)
  case ldr.refl => exact congrArg Host.Outcome.next (State.loadTo_setCond ..)
  case ldi.refl => exact execLdi_setCond ..
  case trapGetc.refl => exact execTrapGetc_setCond ..
  case trapIn.refl => exact execTrapIn_setCond ..
  -- ADD, AND, NOT and LEA: the value comes from the registers and `pc` alone
  all_goals rfl

/-- An instruction other than BR that does not set the flag hands on whatever flag it is given. -/
theorem exec_setCond_of_flagReg_none {i : Instr} {s t : State} (hr : flagReg i = none)
    (hbr : ∀ n z p off, i ≠ .br n z p off) (h : exec i s = .next t) (c : Cond) :
    exec i (s.setCond c) = .next (t.setCond c) := by
  cases i <;> cases hr
  case br.refl n z p off => exact absurd rfl (hbr n z p off)
  case sti.refl => exact execSti_setCond h c
  case trapPuts.refl => exact State.putString_setCond h c
  case trapPutsp.refl => exact State.putString_setCond h c
  -- the others read no memory and answer one state built by field updates
  all_goals
    obtain rfl := Host.Outcome.next.inj h
    rfl

theorem cond_execBr {n z p : Bool} {off : BitVec 9} {s t : State} (h : execBr n z p off s = .next t) :
    t.cond = s.cond := by
  obtain rfl := Host.Outcome.next.inj h
  split <;> rfl

/-- Handing on any flag is, for the flag that stood there, leaving it unchanged. -/
theorem cond_exec_of_flagReg_none {i : Instr} {s t : State} (hr : flagReg i = none) (h : exec i s = .next t) :
    t.cond = s.cond := by
  by_cases hbr : ∃ n z p off, i = .br n z p off
  · obtain ⟨n, z, p, off, rfl⟩ := hbr
    exact cond_execBr h
  · have hc : exec i s = .next (t.setCond s.cond) :=
      exec_setCond_of_flagReg_none hr (fun n z p off e => hbr ⟨n, z, p, off, e⟩) h s.cond
    have ht : t = t.setCond s.cond := Host.Outcome.next.inj (h.symm.trans hc)
    rw [ht, State.cond_setCond]

/-- Settles O25: by whether the instruction sets the flag. -/
theorem onlyFlagSettersWriteAndOnlyBrReadsTheFlag : Obligations.OnlyFlagSettersWriteAndOnlyBrReadsTheFlag := by
  constructor
  · intro i s t h
    cases hr : flagReg i with
    | some r => exact cond_exec_of_flagReg_some hr h
    | none => exact cond_exec_of_flagReg_none hr h
  · intro i s t c hbr h
    cases hr : flagReg i with
    | some r => exact (exec_setCond_of_flagReg_some hr s c).trans h
    | none => exact exec_setCond_of_flagReg_none hr hbr h c

end Sys2Proof.Machine
end

section
/-!
PROOFS. The write primitive (20_memory.md R56, R57) and what a later read sees of a store.

The idea for the keyboard words: a poll always overwrites KBSR, so what was stored there is lost before it can be read;
it overwrites KBDR only when it takes a byte.
-/

namespace Sys2Proof.Machine

/-! Stores -/

/-- Of two stores at one address the later one stands. -/
theorem State.memWrite_memWrite {s : State} (h : s.mem.wf) (a v w : Word) :
    (s.memWrite a v).memWrite a w = s.memWrite a w :=
  congrArg s.setMem (Memory.write_write h a.isLt v w)

/-- An image of one Word is one store into the zero-filled memory. -/
theorem State.resetWith_singleWord (a v : Word) :
    State.resetWith [{ origin := a, words := [v] }] = State.reset.memWrite a v := by
  have load : Memory.loadImage [] { origin := a, words := [v] } = Memory.write [] a.toNat v := if_pos a.isLt
  exact congrArg State.reset.setMem load

theorem State.word_resetWith_singleWord (a v : Word) :
    (State.resetWith [{ origin := a, words := [v] }]).word a = v := by
  rw [State.resetWith_singleWord, State.word_memWrite Memory.wf_nil, if_pos rfl]

/-! What a poll makes of a store -/

/-- A poll overwrites what was stored at KBSR. -/
theorem State.pollKeyboard_memWrite_kbsr {s : State} (h : s.mem.wf) (v : Word) :
    (s.memWrite config.kbsrAddr v).pollKeyboard = s.pollKeyboard := by
  rcases s.pollKeyboard_cases with ⟨hq, e⟩ | ⟨b, q, hq, e⟩
  · rw [e, State.pollKeyboard_nil (s := s.memWrite config.kbsrAddr v) hq, State.memWrite_memWrite h]
  · have overwrite := State.memWrite_memWrite (s := s.setKbq q) h config.kbsrAddr v 0x8000
    rw [e, State.pollKeyboard_cons (s := s.memWrite config.kbsrAddr v) hq, ← overwrite]
    rfl

/-- A poll without input leaves what KBDR holds. -/
theorem State.word_pollKeyboard_kbdr_nil {s : State} (h : s.mem.wf) (hq : s.kbq = []) :
    s.pollKeyboard.word config.kbdrAddr = s.word config.kbdrAddr := by
  rw [State.pollKeyboard_nil hq, State.word_memWrite h, if_neg config_keyboardWordsDistinct.symm]

/-- A poll with input leaves the head byte in KBDR. -/
theorem State.word_pollKeyboard_kbdr_cons {s : State} (h : s.mem.wf) {b : Byte} {q : List Byte} (hq : s.kbq = b :: q) :
    s.pollKeyboard.word config.kbdrAddr = zext8 b := by
  rw [State.pollKeyboard_cons hq, State.word_memWrite (State.wf_memWrite (s := s.setKbq q) h ..), if_pos rfl]

/-! What a read sees of a store -/

theorem State.memRead_kbsr_memWrite_kbsr {s : State} (h : s.mem.wf) (v : Word) :
    (s.memWrite config.kbsrAddr v).memRead config.kbsrAddr = s.memRead config.kbsrAddr := by
  simp only [State.memRead_kbsr, State.pollKeyboard_memWrite_kbsr h]

theorem State.memRead_kbdr_fst (s : State) : (s.memRead config.kbdrAddr).1 = s.word config.kbdrAddr := by
  rw [State.memRead_of_ne config_keyboardWordsDistinct.symm]

theorem State.memRead_kbdr_memWrite_kbdr {s : State} (h : s.mem.wf) (v : Word) :
    ((s.memWrite config.kbdrAddr v).memRead config.kbdrAddr).1 = v := by
  rw [State.memRead_kbdr_fst, State.word_memWrite h, if_pos rfl]

/-- Settles O28: a store is `State.word_memWrite`, a KBSR read after it polls first, and an image of one Word is one
store. -/
theorem storesAreOrdinaryEverywhere : Obligations.StoresAreOrdinaryEverywhere := by
  refine ⟨fun s a v h => ?_, fun s v h => ?_, fun v => ?_⟩
  · exact ⟨State.word_memWrite h a v, fun _ _ => rfl, rfl, rfl, ⟨rfl, rfl⟩, rfl, rfl, rfl⟩
  · refine ⟨State.memRead_kbsr_memWrite_kbsr h v, State.memRead_kbdr_memWrite_kbdr h v, ?_⟩
    have hw : (s.memWrite config.kbdrAddr v).mem.wf := State.wf_memWrite h ..
    rw [State.memRead_kbdr_fst, State.memRead_kbsr]
    cases hq : s.kbq with
    | nil => rw [State.word_pollKeyboard_kbdr_nil hw hq, State.word_memWrite h, if_pos rfl]
    | cons b q => exact State.word_pollKeyboard_kbdr_cons hw hq
  · exact ⟨State.word_resetWith_singleWord .., State.word_resetWith_singleWord ..⟩

end Sys2Proof.Machine
end

section
/-!
PROOFS. Sign extension (30_encoding.md R91).

The idea: the model's `sext n` adds the ones above the field as a number. For every field of at most 16 bits that is
`BitVec.signExtend` to a Word, so the library's facts about the bits and the signed value of `signExtend` hold of it.
-/

namespace Sys2Proof.Machine

/-- The sum in `sext` never wraps. -/
theorem toNat_sext {n : Nat} (hn : n ≤ 16) (v : BitVec n) :
    (sext n v).toNat = if v.msb then v.toNat + (65536 - 2 ^ n) else v.toNat := by
  have hv : v.toNat < 2 ^ n := v.isLt
  have hpow : 2 ^ n ≤ 65536 := Nat.pow_le_pow_right (n := 2) (by decide) hn
  unfold sext
  split <;> rw [BitVec.toNat_ofNat, Nat.mod_eq_of_lt (by omega)]

theorem sext_eq_signExtend {n : Nat} (hn : n ≤ 16) (v : BitVec n) : sext n v = v.signExtend 16 := by
  apply BitVec.eq_of_toNat_eq
  rw [toNat_sext hn, BitVec.toNat_signExtend, BitVec.toNat_setWidth_of_le hn]
  split <;> rfl

theorem getLsbD_sext {n : Nat} (hn : n ≤ 16) (v : BitVec n) {k : Nat} (hk : k < 16) :
    (sext n v).getLsbD k = if k < n then v.getLsbD k else v.msb := by
  rw [sext_eq_signExtend hn, BitVec.getLsbD_signExtend, decide_eq_true hk, Bool.true_and]

theorem toInt_sext {n : Nat} (hn : n ≤ 16) (v : BitVec n) : (sext n v).toInt = v.toInt := by
  rw [sext_eq_signExtend hn, BitVec.toInt_signExtend_of_le hn]

/-- Settles O6: each clause holds for every field of at most 16 bits, and the range is that of an `n`-bit signed
number. -/
theorem signExtensionFillsTheHigherBits : Obligations.SignExtensionFillsTheHigherBits := by
  refine ⟨fun n hmem v => ?_, by decide, by decide⟩
  have hn : n ≤ 16 := (by decide : ∀ n ∈ [5, 6, 9, 11], n ≤ 16) n hmem
  rw [← BitVec.msb_eq_getLsbD_last, toInt_sext hn]
  exact ⟨toNat_sext hn v, fun k hk => getLsbD_sext hn v hk, rfl, v.le_toInt, v.toInt_le⟩

end Sys2Proof.Machine
end

section
/-!
PROOFS. The condition flag as a test of the Word's own bits (40_instruction_cycle.md R126), and the step as fetch,
decode and execute (R122, R123).
-/

namespace Sys2Proof.Machine

/-! The flag of a value -/

/-- The sign that `condOf` looks at is bit 15 of the Word. -/
theorem condOf_eq_ite_getLsbD (v : Word) :
    condOf v = if v = 0x0000 then .zero else if v.getLsbD 15 then .neg else .pos := by
  rw [condOf, BitVec.msb_eq_getLsbD_last]

/-- Settles O24: the flag written is `condOf` of the value, and a flag setter writes it together with its register. -/
theorem setccSetsTheFlagOfTheValue : Obligations.SetccSetsTheFlagOfTheValue := by
  constructor
  · intro s v
    rw [← condOf_eq_ite_getLsbD]
    rfl
  · intro i s t r hr h
    rw [← condOf_eq_ite_getLsbD]
    exact cond_exec_of_flagReg_some hr h

/-! The step -/

/-- The core does not wait where a GETC or IN finds its byte, or where the next instruction is neither. -/
theorem State.awaitsInput_eq_false {s : State} (h : takesInput (decode (s.word s.pc)) = true → s.kbq ≠ []) :
    s.awaitsInput = false := by
  cases hi : takesInput (decode (s.word s.pc)) with
  | false => simp [State.awaitsInput, State.inputTrapNext, hi]
  | true => simp [State.awaitsInput, (State.kbdPoll_iff s).mpr (h hi)]

/-- A step that is neither cancelled nor waiting is the execution of what the fetch decodes to (R122). -/
theorem step_eq_exec_fetch {s : State} (hr : s.run = .running) (hc : s.cancelReq = false) (ha : s.awaitsInput = false) :
    step s = exec (decode s.fetch.ir) s.fetch := by
  simp [step_running hr, hc, ha]

/-- Settles O7: the step is begun, and away from KBSR its fetch changes only `ir` and `pc`. -/
theorem stepRunsTheInstructionAtPc : Obligations.StepRunsTheInstructionAtPc := by
  rintro s i hr hc hp rfl - hin
  rw [step_eq_exec_fetch hr hc (State.awaitsInput_eq_false hin), State.fetch_of_ne hp]
  rfl

end Sys2Proof.Machine
end

section
/-!
PROOFS. The operate instructions ADD, AND and NOT (41_operate.md R140 to R145).

The idea: each answers one flagged register write, whose frame is proved once; what is left of a statement is the value
written.
-/

namespace Sys2Proof.Machine

/-- A flagged register write changes its register and the flag, and nothing else. -/
theorem wroteFlagged_setRegCC (s : State) (dr : Reg) (v : Word) : WroteFlagged dr v s (s.setRegCC dr v) := by
  refine ⟨?_, rfl, fun r hr => ?_, rfl, fun _ => rfl, ⟨rfl, rfl⟩, rfl, rfl, rfl⟩
  · rw [State.reg_setRegCC, if_pos rfl]
  · rw [State.reg_setRegCC, if_neg (List.ne_of_not_mem_cons hr)]

/-- What either form of ADD answers: the Word sum is the low 16 bits of the integer sum (R145). -/
theorem wroteFlagged_setRegCC_add (s : State) (dr : Reg) (a b : Word) :
    WroteFlagged dr (BitVec.ofNat 16 (a.toNat + b.toNat)) s (s.setRegCC dr (a + b)) := by
  rw [← BitVec.add_def]
  exact wroteFlagged_setRegCC s dr (a + b)

/-- Settles O36: each form answers one flagged register write of the sum. -/
theorem addWritesTheSumAndItsFlag : Obligations.AddWritesTheSumAndItsFlag :=
  ⟨fun s dr sr1 sr2 => ⟨_, rfl, wroteFlagged_setRegCC_add s dr (s.reg sr1) (s.reg sr2)⟩,
    fun s dr sr1 imm => ⟨_, rfl, wroteFlagged_setRegCC_add s dr (s.reg sr1) (sext 5 imm)⟩⟩

/-- What either form of AND answers, bit by bit (R142, R143). -/
theorem wroteFlagged_setRegCC_and (s : State) (dr : Reg) (a b : Word) :
    (∀ k, ((s.setRegCC dr (a &&& b)).reg dr).getLsbD k = (a.getLsbD k && b.getLsbD k)) ∧
      WroteFlagged dr ((s.setRegCC dr (a &&& b)).reg dr) s (s.setRegCC dr (a &&& b)) := by
  have hv : (s.setRegCC dr (a &&& b)).reg dr = a &&& b := by rw [State.reg_setRegCC, if_pos rfl]
  rw [hv]
  exact ⟨fun k => BitVec.getLsbD_and, wroteFlagged_setRegCC s dr (a &&& b)⟩

/-- Settles O37: each form answers one flagged register write of the bitwise AND. -/
theorem andWritesTheBitwiseAndAndItsFlag : Obligations.AndWritesTheBitwiseAndAndItsFlag :=
  ⟨fun s dr sr1 sr2 => ⟨_, rfl, wroteFlagged_setRegCC_and s dr (s.reg sr1) (s.reg sr2)⟩,
    fun s dr sr1 imm => ⟨_, rfl, wroteFlagged_setRegCC_and s dr (s.reg sr1) (sext 5 imm)⟩⟩

/-- Settles O38: the bitwise complement that NOT writes is `0xFFFF` minus the source (R144). -/
theorem notWritesTheComplementAndItsFlag : Obligations.NotWritesTheComplementAndItsFlag := by
  intro s dr sr
  have hv : 0xFFFF - s.reg sr = ~~~(s.reg sr) := BitVec.allOnes_sub_eq_not (s.reg sr)
  rw [hv]
  exact ⟨_, rfl, wroteFlagged_setRegCC s dr (~~~(s.reg sr))⟩

end Sys2Proof.Machine
end

section
/-!
PROOFS. The control transfers BR, JMP and JSR (42_control_transfer.md R150 to R153).

The idea: each answers one write of `pc`, JSR after its link. The frame of either is proved once; what is left of BR is
when it is taken.
-/

namespace Sys2Proof.Machine

/-! The test of BR -/

/-- A BR is taken exactly when a mask bit meets the flag (R150). -/
theorem brTaken_iff (n z p : Bool) (c : Cond) :
    brTaken n z p c = true ↔ (n = true ∧ c = .neg) ∨ (z = true ∧ c = .zero) ∨ (p = true ∧ c = .pos) := by
  simp only [brTaken, Bool.or_eq_true, Bool.and_eq_true, beq_iff_eq, or_assoc]

/-- The one-hot form of a flag picks that flag's own bit out of the mask of BR (10_state.md R28). -/
theorem and_condMask_ne_zero_iff (n z p : Bool) (c : Cond) :
    (BitVec.ofBool n ++ BitVec.ofBool z ++ BitVec.ofBool p) &&& c.mask ≠ 0#3 ↔
      (n = true ∧ c = .neg) ∨ (z = true ∧ c = .zero) ∨ (p = true ∧ c = .pos) := by
  revert n z p
  cases c <;> decide

/-- Every flag is one of the three, so the mask with all of them is always taken. -/
theorem brTaken_all (c : Cond) : brTaken true true true c = true := by
  cases c <;> rfl

/-- Settles O26: the test and the AND both say that a mask bit meets the flag. -/
theorem branchTestIsMaskAndFlag : Obligations.BranchTestIsMaskAndFlag :=
  ⟨fun n z p c => (brTaken_iff n z p c).trans (and_condMask_ne_zero_iff n z p c).symm,
    fun c => ⟨rfl, brTaken_all c⟩⟩

/-! The transfers -/

/-- A transfer to where `pc` stands already, writing nothing. -/
theorem transferred_refl (s : State) : Transferred s.pc [] s s :=
  ⟨rfl, fun _ _ => rfl, rfl, fun _ => rfl, ⟨rfl, rfl⟩, rfl, rfl, rfl⟩

/-- A write of `pc` alone changes nothing else. -/
theorem transferred_setPc (s : State) (v : Word) : Transferred v [] s (s.setPc v) :=
  ⟨rfl, fun _ _ => rfl, rfl, fun _ => rfl, ⟨rfl, rfl⟩, rfl, rfl, rfl⟩

/-- The link and a write of `pc` change R7 and `pc`, and nothing else. -/
theorem transferred_setPc_linkR7 (s : State) (v : Word) : Transferred v [7] s (s.linkR7.setPc v) := by
  refine ⟨rfl, fun r hr => ?_, rfl, fun _ => rfl, ⟨rfl, rfl⟩, rfl, rfl, rfl⟩
  rw [State.reg_setPc, State.reg_linkR7, if_neg (List.ne_of_not_mem_cons hr)]

/-- The link puts the return address in R7, wherever the transfer goes. -/
theorem reg_seven_setPc_linkR7 (s : State) (v : Word) : (s.linkR7.setPc v).reg 7 = s.pc := by
  rw [State.reg_setPc, State.reg_linkR7, if_pos rfl]

/-- Settles O39: by whether the branch is taken. -/
theorem brGoesToItsTargetWhenTaken : Obligations.BrGoesToItsTargetWhenTaken := by
  intro s n z p off
  refine ⟨_, rfl, ?_⟩
  by_cases taken : brTaken n z p s.cond = true
  · rw [if_pos taken, if_pos ((brTaken_iff ..).mp taken)]
    exact transferred_setPc s (s.pcRel9 off)
  · rw [if_neg taken, if_neg (mt (brTaken_iff ..).mpr taken)]
    exact transferred_refl s

/-- Settles O40: JMP answers one write of `pc`. -/
theorem jmpGoesToTheBaseRegister : Obligations.JmpGoesToTheBaseRegister :=
  fun s baseR => ⟨_, rfl, transferred_setPc s (s.reg baseR)⟩

/-- Settles O41: the link leaves `pc` alone, so the target is relative to the return address. -/
theorem jsrLinksAndGoesToItsTarget : Obligations.JsrLinksAndGoesToItsTarget :=
  fun s off => ⟨_, rfl, reg_seven_setPc_linkR7 s _, transferred_setPc_linkR7 s (s.pc + sext 11 off)⟩

end Sys2Proof.Machine
end

section
/-!
PROOFS. The loads and stores LD, LDI, LDR, LEA, ST, STI and STR (43_load_store.md R159 to R166).

The idea: whether the address is KBSR matters only inside the read. What a read answers and leaves, in the terms of the
claims, is proved once for every address; each instruction is then that read, a flagged register write or a store, in
its order.
-/

namespace Sys2Proof.Machine

/-! The read, at every address (20_memory.md R54, R55) -/

/-- A read answers whether input is there, or the stored Word. -/
theorem State.memRead_fst_eq_readValue {s : State} (h : s.mem.wf) (a : Word) : (s.memRead a).1 = s.readValue a := by
  by_cases ha : a = config.kbsrAddr
  · rw [ha, State.memRead_kbsr_fst h, State.readValue, if_pos rfl]
  · rw [State.memRead_of_ne ha, State.readValue, if_neg ha]

theorem State.kbq_memRead_eq_queueAfterRead (s : State) (a : Word) : (s.memRead a).2.kbq = s.queueAfterRead a := by
  by_cases ha : a = config.kbsrAddr
  · rw [ha, State.memRead_kbsr, State.queueAfterRead, if_pos rfl]
    cases hq : s.kbq with
    | nil => rw [State.pollKeyboard_nil hq, State.kbq_memWrite, hq, List.tail_nil]
    | cons b q => rw [State.pollKeyboard_cons hq]; rfl
  · rw [State.memRead_of_ne ha, State.queueAfterRead, if_neg ha]

/-- A poll stores its answer in KBSR and the byte it takes in KBDR. -/
theorem State.word_pollKeyboard_eq_wordAfterRead {s : State} (h : s.mem.wf) (x : Word) :
    s.pollKeyboard.word x = s.wordAfterRead config.kbsrAddr x := by
  rw [State.wordAfterRead, if_pos rfl]
  by_cases hs : x = config.kbsrAddr
  · rw [if_pos hs, hs, ← State.memRead_fst_eq_readValue h, State.memRead_kbsr]
  rw [if_neg hs]
  by_cases hd : x = config.kbdrAddr
  · rw [if_pos hd, hd]
    cases hq : s.kbq with
    | nil => exact State.word_pollKeyboard_kbdr_nil h hq
    | cons b q => exact State.word_pollKeyboard_kbdr_cons h hq
  · rw [if_neg hd, State.word_pollKeyboard h hs hd]

theorem State.word_memRead_eq_wordAfterRead {s : State} (h : s.mem.wf) (a x : Word) :
    (s.memRead a).2.word x = s.wordAfterRead a x := by
  by_cases ha : a = config.kbsrAddr
  · rw [ha, State.memRead_kbsr, State.word_pollKeyboard_eq_wordAfterRead h]
  · rw [State.memRead_of_ne ha, State.wordAfterRead, if_neg ha]

/-- A read leaves the run state, `ir` and the cancellation request alone. -/
theorem sameControl_memRead (s : State) (a : Word) : SameControl s (s.memRead a).2 :=
  ⟨State.run_memRead s a, State.ir_memRead s a, State.cancelReq_memRead s a⟩

/-! Loads -/

/-- The common part of the loads: of what the read leaves, the flagged write changes only its register and the flag. -/
theorem loaded_loadTo {s : State} (h : s.mem.wf) (dr : Reg) (a : Word) : Loaded dr a s (s.loadTo dr a) := by
  have hv : (s.memRead a).1 = s.readValue a := State.memRead_fst_eq_readValue h a
  refine ⟨?_, congrArg condOf hv, fun r hr => ?_, State.pc_memRead s a, State.word_memRead_eq_wordAfterRead h a,
    State.kbq_memRead_eq_queueAfterRead s a, State.conout_memRead s a, sameControl_memRead s a⟩
  · rw [State.loadTo, State.reg_setRegCC, if_pos rfl, hv]
  · rw [State.loadTo, State.reg_setRegCC, if_neg (List.ne_of_not_mem_cons hr), State.reg_memRead]

/-- Settles O43: each form answers one load, from its own address. -/
theorem ldAndLdrLoadTheWordAndItsFlag : Obligations.LdAndLdrLoadTheWordAndItsFlag :=
  ⟨fun s dr off h => ⟨_, rfl, loaded_loadTo h dr (s.pcRel9 off)⟩,
    fun s dr baseR off h => ⟨_, rfl, loaded_loadTo h dr (s.baseRel6 baseR off)⟩⟩

/-- Settles O44: the state between the two reads is the one the pointer's read leaves, and its memory is canonical, so
the second read is again an ordinary load. -/
theorem ldiLoadsThroughItsPointer : Obligations.LdiLoadsThroughItsPointer := by
  intro s dr off h
  refine ⟨_, (s.memRead (s.pcRel9 off)).2, rfl, State.word_memRead_eq_wordAfterRead h _,
    State.kbq_memRead_eq_queueAfterRead s _, fun r _ => State.reg_memRead s _ r, State.pc_memRead s _,
    State.cond_memRead s _, State.conout_memRead s _, sameControl_memRead s _, ?_⟩
  rw [← State.memRead_fst_eq_readValue h]
  exact loaded_loadTo (State.wf_memRead h _) dr _

/-- Settles O45: LEA answers one flagged register write of the address. -/
theorem leaWritesTheAddressAndItsFlag : Obligations.LeaWritesTheAddressAndItsFlag :=
  fun s dr off => ⟨_, rfl, wroteFlagged_setRegCC s dr (s.pcRel9 off)⟩

/-! Stores -/

/-- A store is seen at its address and changes nothing else. -/
theorem State.memWrite_frame {s : State} (h : s.mem.wf) (a v : Word) :
    (∀ x, (s.memWrite a v).word x = if x = a then v else s.word x) ∧ SameRegsExcept [] s (s.memWrite a v) ∧
      (s.memWrite a v).pc = s.pc ∧ (s.memWrite a v).cond = s.cond ∧ SameConsole s (s.memWrite a v) ∧
      SameControl s (s.memWrite a v) :=
  ⟨State.word_memWrite h a v, fun _ _ => rfl, rfl, rfl, ⟨rfl, rfl⟩, rfl, rfl, rfl⟩

/-- Settles O46: each form answers one store, at its own address. -/
theorem stAndStrStoreTheRegister : Obligations.StAndStrStoreTheRegister :=
  ⟨fun s sr off h => ⟨_, rfl, State.memWrite_frame h (s.pcRel9 off) (s.reg sr)⟩,
    fun s sr baseR off h => ⟨_, rfl, State.memWrite_frame h (s.baseRel6 baseR off) (s.reg sr)⟩⟩

/-- Settles O47: the pointer's read leaves a canonical memory and every register, so the store after it goes where the
pointer says, with the register's old value. -/
theorem stiStoresThroughItsPointer : Obligations.StiStoresThroughItsPointer := by
  intro s sr off h
  refine ⟨_, rfl, fun x => ?_, State.kbq_memRead_eq_queueAfterRead s _, fun r _ => State.reg_memRead s _ r,
    State.pc_memRead s _, State.cond_memRead s _, State.conout_memRead s _, sameControl_memRead s _⟩
  rw [State.word_memWrite (State.wf_memRead h _), State.reg_memRead, State.memRead_fst_eq_readValue h,
    State.word_memRead_eq_wordAfterRead h, State.pcRel9]

end Sys2Proof.Machine
end

section
/-!
PROOFS. The trap routines (44_trap.md R180 to R189): what they may change, that the string routines end, and that every
step has a next state.

The idea for the next state: the meanings that could stop are GETC and IN, with an empty queue, and PUTS and PUTSP, past
the bound of their walk. The walk always ends, and a step waits unless its GETC or IN finds a byte.
-/

namespace Sys2Proof.Machine

/-! What a routine may change (R181) -/

/-- GETC and IN are the traps that set the flag, from R0. -/
theorem flagReg_of_isTrap {i : Instr} (hi : isTrap i = true) :
    flagReg i = if i = .trapGetc ∨ i = .trapIn then some 0 else none := by
  cases i <;> cases hi <;> rfl

/-- PUTS and PUTSP after the link leave `pc` and the registers alone. -/
theorem State.pc_reg_putString {s t : State} {chars : Word → List Byte} (h : s.putString chars = .next t) :
    t.pc = s.pc ∧ ∀ r, t.reg r = s.reg r := by
  obtain ⟨u, rfl, hu⟩ := State.putString_next h
  have frame := stringWalk_frame hu
  exact ⟨frame.pc, frame.reg⟩

/-- After the link a routine leaves `pc` alone, and every register but the one it sets the flag from. -/
theorem pc_reg_exec_of_isTrap {i : Instr} {s t : State} (hi : isTrap i = true) (h : exec i s = .next t) :
    t.pc = s.pc ∧ ∀ r, flagReg i ≠ some r → t.reg r = s.linkR7.reg r := by
  cases i <;> cases hi
  case trapGetc.refl =>
    obtain ⟨b, q, -, rfl⟩ := execTrapGetc_next h
    refine ⟨rfl, fun r hr => ?_⟩
    have hr0 : r ≠ 0 := fun e => hr (congrArg some e.symm)
    rw [State.reg_setRegCC, if_neg hr0, State.reg_setKbq]
  case trapIn.refl =>
    obtain ⟨b, q, -, rfl⟩ := execTrapIn_next h
    rw [State.conOutAll_eq]
    refine ⟨rfl, fun r hr => ?_⟩
    have hr0 : r ≠ 0 := fun e => hr (congrArg some e.symm)
    rw [State.reg_setRegCC, if_neg hr0, State.reg_conFlush, State.reg_conOut, State.reg_setKbq, State.reg_setConout]
  case trapPuts.refl => exact (State.pc_reg_putString h).imp_right fun hreg r _ => hreg r
  case trapPutsp.refl => exact (State.pc_reg_putString h).imp_right fun hreg r _ => hreg r
  -- OUT, HALT and the undefined vectors touch the console or `run` after the link
  all_goals
    obtain rfl := Host.Outcome.next.inj h
    exact ⟨rfl, fun _ _ => rfl⟩

/-- Settles O35: the link writes R7 alone, and the routine after it can write R0 alone, where it sets the flag. -/
theorem trapRoutinesChangeOnlyR0R7AndTheFlag : Obligations.TrapRoutinesChangeOnlyR0R7AndTheFlag := by
  intro i s t hi h
  obtain ⟨hpc, hreg⟩ := pc_reg_exec_of_isTrap hi h
  have hflag := flagReg_of_isTrap hi
  have hne : ∀ r : Reg, r ≠ 0 → flagReg i ≠ some r := fun r hr => by
    rw [hflag]
    split
    · exact fun e => hr (Option.some.inj e).symm
    · exact (Option.some_ne_none r).symm
  refine ⟨hpc, ?_, fun r hr => ?_, fun hgetc hin => ?_⟩
  · rw [hreg 7 (hne 7 (by decide)), State.reg_linkR7, if_pos rfl]
  · obtain ⟨h0, h7⟩ : r ≠ 0 ∧ r ≠ 7 := by simpa using hr
    rw [hreg r (hne r h0), State.reg_linkR7, if_neg h7]
  · have hnone : flagReg i = none := by rw [hflag, if_neg (not_or.mpr ⟨hgetc, hin⟩)]
    refine ⟨?_, cond_exec_of_flagReg_none hnone h⟩
    rw [hreg 0 (by simp [hnone]), State.reg_linkR7, if_neg (by decide)]

/-! The string routines end (R189) -/

/-- Settles O53: the walk ends within its bound, and its frame is the frame of the routine after the link. -/
theorem stringRoutinesAlwaysEnd : Obligations.StringRoutinesAlwaysEnd := by
  intro s i h hi
  obtain ⟨chars, hexec⟩ : ∃ chars, exec i s = s.linkR7.putString chars := by
    rcases hi with rfl | rfl
    · exact ⟨putsChars, rfl⟩
    · exact ⟨putspChars, rfl⟩
  obtain ⟨t, ht, hwalk⟩ := State.putString_eq (s := s.linkR7) h chars
  have frame := stringWalk_frame hwalk
  obtain ⟨bytes, hout⟩ := frame.conout
  refine ⟨t.conFlush, hexec.trans ht, ⟨bytes, congrArg (· ++ [OutEvent.flush]) hout⟩, frame.kbq, ?_, fun r hr => ?_,
    frame.cond, frame.pc, ⟨frame.run, frame.ir, frame.cancelReq⟩, (stringWalk_memory (s := s.linkR7) h hwalk).2⟩
  · rw [State.reg_conFlush, frame.reg, State.reg_linkR7, if_pos rfl]
  · rw [State.reg_conFlush, frame.reg, State.reg_linkR7, if_neg (List.ne_of_not_mem_cons hr)]

/-- PUTS and PUTSP after the link have a next state and keep memory's canonical form. -/
theorem State.putString_next_wf {s : State} (h : s.mem.wf) (chars : Word → List Byte) :
    ∃ t, s.putString chars = .next t ∧ t.mem.wf := by
  obtain ⟨t, ht, hwalk⟩ := State.putString_eq h chars
  exact ⟨_, ht, (stringWalk_memory h hwalk).1⟩

/-! Every step has a next state -/

/-- GETC with a byte there (R182). -/
theorem execTrapGetc_of_cons {s : State} {b : Byte} {q : List Byte} (hq : s.kbq = b :: q) :
    execTrapGetc s = .next ((s.linkR7.setKbq q).setRegCC 0 (zext8 b)) := by
  rw [execTrapGetc, State.kbdTake_cons (s := s.linkR7) hq]

/-- IN with a byte there (R185). -/
theorem execTrapIn_of_cons {s : State} {b : Byte} {q : List Byte} (hq : s.kbq = b :: q) :
    execTrapIn s =
      .next ((((s.linkR7.conOutAll config.inPrompt).setKbq q).conOut b).conFlush.setRegCC 0 (zext8 b)) := by
  have hq' : (s.linkR7.conOutAll config.inPrompt).kbq = b :: q := by rw [State.conOutAll_eq]; exact hq
  rw [execTrapIn, State.kbdTake_cons hq']

/-- On a canonical memory every instruction that finds the byte it takes has a next state, with canonical memory. -/
theorem exec_next_wf {i : Instr} {s : State} (h : s.mem.wf) (hin : takesInput i = true → s.kbq ≠ []) :
    ∃ t, exec i s = .next t ∧ t.mem.wf := by
  cases i
  case br n z p off =>
    refine ⟨_, rfl, ?_⟩
    split <;> exact h
  case ld dr off => exact ⟨_, rfl, State.wf_memRead h _⟩
  case ldr dr baseR off => exact ⟨_, rfl, State.wf_memRead h _⟩
  case ldi dr off => exact ⟨_, rfl, State.wf_memRead (State.wf_memRead h _) _⟩
  case st sr off => exact ⟨_, rfl, State.wf_memWrite h _ _⟩
  case str sr baseR off => exact ⟨_, rfl, State.wf_memWrite h _ _⟩
  case sti sr off => exact ⟨_, rfl, State.wf_memWrite (State.wf_memRead h _) _ _⟩
  case trapGetc =>
    obtain ⟨b, q, hq⟩ := List.exists_cons_of_ne_nil (hin rfl)
    exact ⟨_, execTrapGetc_of_cons hq, h⟩
  case trapIn =>
    obtain ⟨b, q, hq⟩ := List.exists_cons_of_ne_nil (hin rfl)
    refine ⟨_, execTrapIn_of_cons hq, ?_⟩
    rw [State.conOutAll_eq]
    exact h
  case trapPuts => exact State.putString_next_wf (s := s.linkR7) h putsChars
  case trapPutsp => exact State.putString_next_wf (s := s.linkR7) h putspChars
  -- the others have no access to memory
  all_goals exact ⟨_, rfl, h⟩

/-- What a poll answers is the Word of a BR or an RTI. -/
theorem takesInput_decode_fetch_kbsr {s : State} (h : s.mem.wf) (hp : s.pc = config.kbsrAddr) :
    takesInput (decode s.fetch.ir) = false := by
  rw [State.ir_fetch, hp, State.memRead_kbsr_fst h]
  split <;> decide

/-- A GETC or IN that a step begins finds its byte: the fetch before it takes none. -/
theorem State.kbq_fetch_ne_nil {s : State} (h : s.mem.wf) (ha : s.awaitsInput = false)
    (hin : takesInput (decode s.fetch.ir) = true) : s.fetch.kbq ≠ [] := by
  by_cases hp : s.pc = config.kbsrAddr
  · simp [takesInput_decode_fetch_kbsr h hp] at hin
  · rw [State.fetch_of_ne hp] at hin ⊢
    have hnext : s.inputTrapNext = true := by simpa [State.inputTrapNext, hp] using hin
    rw [State.awaitsInput, hnext] at ha
    exact (State.kbdPoll_iff s).mp (by simpa using ha)

/-- In an ended run the step is a stutter (40_instruction_cycle.md R128). -/
theorem step_eq_self_of_ended {s : State} (h : s.ended) : step s = .next s := by
  unfold step
  split
  · exact absurd ‹s.run = .running› h
  all_goals rfl

/-- Settles O16: a step stutters, is cancelled, or runs an instruction that finds the byte it takes. -/
theorem everyStepHasANextState : Obligations.EveryStepHasANextState := by
  intro s h
  by_cases hr : s.run = .running
  · cases hc : s.cancelReq with
    | true => exact ⟨s.setRun .cancelled, by rw [step_running hr, if_pos hc], h⟩
    | false =>
      cases ha : s.awaitsInput with
      | true => exact ⟨s, by simp [step_running hr, hc, ha], h⟩
      | false =>
        rw [step_eq_exec_fetch hr hc ha]
        exact exec_next_wf (State.wf_memRead h s.pc) (State.kbq_fetch_ne_nil h ha)
  · exact ⟨s, step_eq_self_of_ended hr, h⟩

end Sys2Proof.Machine
end

section
/-!
PROOFS. The reset sequence (70_reset_and_hazards.md R241) and what reading finds of a loaded image (R243).
-/

namespace Sys2Proof.Machine

/-! Loaded images -/

/-- Word `k` of the Words loaded from `a` stands at `a + k` where that is an address of memory, and every other address
reads as before. -/
theorem Memory.read_loadWords {m : Memory} (h : m.rising) (a : Nat) (ws : List Word) {x : Nat} (hx : x < 65536) :
    (m.loadWords a ws).read x =
      if hk : a ≤ x ∧ x - a < ws.length then ws[x - a]'hk.2 else m.read x := by
  induction ws generalizing m a with
  | nil => simp [Memory.loadWords]
  | cons w ws ih =>
    by_cases ha : a < 65536
    · rw [Memory.loadWords, if_pos ha, ih (Memory.rising_write h a w), Memory.read_write h]
      rcases Nat.lt_trichotomy x a with below | rfl | above
      · simp [show ¬a + 1 ≤ x by omega, show ¬a ≤ x by omega, below.ne]
      · simp
      · obtain ⟨k, rfl⟩ := Nat.exists_eq_add_of_le (show a + 1 ≤ x from above)
        simp [show a + 1 + k - a = k + 1 by omega, show a ≤ a + 1 + k by omega, show a + 1 + k ≠ a by omega]
    · have below : ¬a ≤ x := by omega
      simp [Memory.loadWords, ha, below]

theorem State.wf_mem_resetWith (images : List Image) : (State.resetWith images).mem.wf :=
  List.foldlRecOn images Memory.loadImage Memory.wf_nil fun _ h i _ => Memory.wf_loadImage h i

/-- One more image at the end of the list is loaded into the memory the others leave. -/
theorem State.mem_resetWith_append_singleton (images : List Image) (i : Image) :
    (State.resetWith (images ++ [i])).mem = (State.resetWith images).mem.loadImage i :=
  List.foldl_concat Memory.loadImage [] i images

theorem State.word_resetWith_append_singleton (images : List Image) (i : Image) (a : Word) :
    (State.resetWith (images ++ [i])).word a =
      if h : i.origin.toNat ≤ a.toNat ∧ a.toNat - i.origin.toNat < i.words.length
      then i.words[a.toNat - i.origin.toNat]'h.2 else (State.resetWith images).word a := by
  rw [State.word, State.mem_resetWith_append_singleton]
  exact Memory.read_loadWords (Memory.rising_of_wf (State.wf_mem_resetWith images)) _ _ a.isLt

/-! What the images do not touch -/

@[simp] theorem State.run_resetWith (images : List Image) : (State.resetWith images).run = .running := rfl

@[simp] theorem State.conout_resetWith (images : List Image) : (State.resetWith images).conout = [] := rfl

@[simp] theorem State.cancelReq_resetWith (images : List Image) : (State.resetWith images).cancelReq = false := rfl

/-- Settles O21: the memory with no image lists no address, one more image is one more load over what the others leave,
and every other field is that of the reset with no image. -/
theorem resetZeroFillsAndLoadsImagesInOrder : Obligations.ResetZeroFillsAndLoadsImagesInOrder := by
  refine ⟨fun _ => rfl, State.word_resetWith_append_singleton, fun images => ?_⟩
  exact ⟨State.reg_resetWith images, State.pc_resetWith images, State.cond_resetWith images,
    State.run_resetWith images, State.conout_resetWith images, State.cancelReq_resetWith images⟩

end Sys2Proof.Machine
end

section
/-!
PROOFS. The decoder, the encoder and the columns of the opcode table (30_encoding.md R80 to R96).

The idea: a row is selected by the opcode alone, by the opcode and a mode bit, or by the opcode and a vector, and a Word
matches a row exactly when those fields of it hold the row's values. So being in a row, and agreeing in the used bits,
are both equalities of fields, which is what the decoder reads.
-/

namespace Sys2Proof

/-! Masks and fields -/

theorem place_inj {lo n : Nat} (h : lo + n ≤ 16) {u v : BitVec n} : place lo u = place lo v ↔ u = v := by
  refine ⟨fun e => ?_, congrArg (place lo)⟩
  rw [← fieldAt_place u h, e, fieldAt_place v h]

/-- Two fields side by side are two fields, each with its own value. -/
theorem place_or_place_inj {hi lo m n : Nat} (hhi : hi + m ≤ 16) (hlo : lo + n ≤ hi) {u u' : BitVec m}
    {v v' : BitVec n} : place hi u ||| place lo v = place hi u' ||| place lo v' ↔ u = u' ∧ v = v' := by
  refine ⟨fun e => ⟨?_, ?_⟩, fun ⟨hu, hv⟩ => by rw [hu, hv]⟩
  · have := congrArg (fieldAt · hi m) e
    simpa (disch := omega) [fieldAt_place, fieldAt_place_of_disjoint] using this
  · have := congrArg (fieldAt · lo n) e
    simpa (disch := omega) [fieldAt_place, fieldAt_place_of_disjoint] using this

/-- Two Words agree under a field's mask exactly when they hold the same field. -/
theorem and_fieldMask_eq_iff {lo n : Nat} (h : lo + n ≤ 16) (v w : Word) :
    v &&& fieldMask lo n = w &&& fieldMask lo n ↔ fieldAt v lo n = fieldAt w lo n := by
  rw [and_fieldMask, and_fieldMask, place_inj h]

/-- Two Words agree under a union of masks exactly when they agree under each. -/
theorem and_or_eq_iff (v w a b : Word) :
    v &&& (a ||| b) = w &&& (a ||| b) ↔ v &&& a = w &&& a ∧ v &&& b = w &&& b := by
  refine ⟨fun h => ⟨?_, ?_⟩, fun ⟨ha, hb⟩ => ?_⟩
  · have ha : (a ||| b) &&& a = a := by ext i; simp +contextual
    rw [← ha, ← BitVec.and_assoc, h, BitVec.and_assoc]
  · have hb : (a ||| b) &&& b = b := by ext i; simp +contextual
    rw [← hb, ← BitVec.and_assoc, h, BitVec.and_assoc]
  · rw [BitVec.and_or_distrib_left, ha, hb, ← BitVec.and_or_distrib_left]

theorem and_opcodeMask_eq_iff (v w : Word) : v &&& opcodeMask = w &&& opcodeMask ↔ fieldAt v 12 4 = fieldAt w 12 4 :=
  and_fieldMask_eq_iff (by decide) v w

theorem fieldAt_one (w : Word) (i : Nat) : fieldAt w i 1 = BitVec.ofBool (bitAt w i) := by
  ext k hk
  obtain rfl : k = 0 := by omega
  simp [fieldAt, bitAt]

theorem regField_regAt (w : Word) (lo : Nat) : regField (regAt w lo) = fieldAt w lo 3 := rfl

/-- The opcode field and the opcode determine each other, since the opcode map is a bijection (R93). -/
theorem fieldAt_eq_opcodeNumber_iff (w : Word) (o : Opcode) : fieldAt w 12 4 = opcodeNumber o ↔ opcodeOf w = o := by
  refine ⟨fun h => ?_, fun h => ?_⟩
  · rw [opcodeOf, h, opcodeMap_opcodeNumber]
  · rw [← h, opcodeOf, opcodeNumber_opcodeMap]

/-! What it is for a Word to match a row (R93) -/

theorem mem_opcodeRow_iff (w : Word) (o : Opcode) : w &&& (opcodeRow o).2 = (opcodeRow o).1 ↔ opcodeOf w = o := by
  rw [opcodeRow, opcodeMask, and_fieldMask, placeOpcode, place_inj (by decide), fieldAt_eq_opcodeNumber_iff]

theorem mem_modeRow_iff (w : Word) (o : Opcode) {lo : Nat} (h : lo < 12) (b : Bool) :
    w &&& (modeRow o lo b).2 = (modeRow o lo b).1 ↔ opcodeOf w = o ∧ bitAt w lo = b := by
  rw [modeRow, opcodeMask, BitVec.and_or_distrib_left, and_fieldMask, and_fieldMask, placeOpcode, placeBit,
    place_or_place_inj (by decide) (by omega), fieldAt_eq_opcodeNumber_iff, fieldAt_one, BitVec.ofBool_eq_iff_eq]

theorem mem_vectorRow_iff (w : Word) (v : BitVec 8) :
    w &&& (vectorRow v).2 = (vectorRow v).1 ↔ opcodeOf w = .trap ∧ fieldAt w 0 8 = v := by
  rw [vectorRow, opcodeMask, BitVec.and_or_distrib_left, and_fieldMask, and_fieldMask, placeOpcode,
    place_or_place_inj (by decide) (by decide), fieldAt_eq_opcodeNumber_iff]

/-! The TRAP rows -/

/-- A vector has its own row, or is undefined: everything `decodeTrap` can answer. -/
theorem decodeTrap_cases (v : BitVec 8) :
    (tableRow (decodeTrap v) = vectorRow v ∧ definedVector v = true) ∨
      (decodeTrap v = .trapUndefined v ∧ definedVector v = false) := by
  revert v
  decide

theorem usedBits_decodeTrap (v : BitVec 8) : usedBits (decodeTrap v) = usedBitsVEC8 := by
  unfold decodeTrap
  split_ifs <;> rfl

theorem encode_decodeTrap (v : BitVec 8) : encode (decodeTrap v) = placeOpcode .trap ||| place 0 v := by
  unfold decodeTrap
  split_ifs <;> simp_all [encode]

theorem wellFormed_decodeTrap (v : BitVec 8) : (decodeTrap v).wellFormed = true := by
  revert v
  decide

theorem decode_of_trap {w : Word} (h : opcodeOf w = .trap) : decode w = decodeTrap (fieldAt w 0 8) := by
  simp only [decode, h]

theorem decode_of_mem_vectorRow {w : Word} {v : BitVec 8} (h : w &&& (vectorRow v).2 = (vectorRow v).1) :
    decode w = decodeTrap v := by
  obtain ⟨ho, rfl⟩ := (mem_vectorRow_iff w v).mp h
  exact decode_of_trap ho

/-! What the decoder answers -/

/-- Settles O3: the opcode, the mode bit and the vector that the decoder read are the ones its row asks for. -/
theorem everyWordLiesInTheRowItDecodesTo : Obligations.EveryWordLiesInTheRowItDecodesTo := by
  intro w
  cases ho : opcodeOf w
  case add | jsr | and =>
    simp only [decode, ho]
    split
    · exact ⟨(mem_modeRow_iff w _ (by decide) true).mpr ⟨ho, ‹_›⟩, rfl⟩
    · exact ⟨(mem_modeRow_iff w _ (by decide) false).mpr ⟨ho, Bool.eq_false_of_not_eq_true ‹_›⟩, rfl⟩
  case trap =>
    rw [decode_of_trap ho]
    refine ⟨?_, wellFormed_decodeTrap _⟩
    rcases decodeTrap_cases (fieldAt w 0 8) with ⟨hrow, -⟩ | ⟨hdec, -⟩
    · rw [hrow]
      exact (mem_vectorRow_iff w _).mpr ⟨ho, rfl⟩
    · rw [hdec]
      exact (mem_opcodeRow_iff w .trap).mpr ho
  -- every other opcode has one row
  all_goals
    simp only [decode, ho]
    exact ⟨(mem_opcodeRow_iff w _).mpr ho, rfl⟩

/-- Settles O4: the row's opcode, mode bit and vector are all that the decoder needs to choose the row. -/
theorem aWordInARowDecodesToThatRow : Obligations.AWordInARowDecodesToThatRow := by
  intro w i hi h
  cases i
  case addReg | addImm | jsr | jsrr | andReg | andImm =>
    obtain ⟨ho, hb⟩ := (mem_modeRow_iff w _ (by decide) _).mp h
    simp only [decode, ho, hb]
    rfl
  case trapGetc | trapOut | trapPuts | trapIn | trapPutsp | trapHalt =>
    rw [decode_of_mem_vectorRow h]
    rfl
  case trapUndefined v => exact absurd rfl (hi v)
  all_goals
    have ho := (mem_opcodeRow_iff w _).mp h
    simp only [decode, ho, tableRow]

/-- The opcode is used in every row. -/
theorem opcodeOf_eq_of_and_usedBits_eq {v w : Word} {i : Instr} (h : v &&& usedBits i = w &&& usedBits i) :
    opcodeOf w = opcodeOf v := by
  have hused : usedBits i &&& opcodeMask = opcodeMask := by cases i <;> simp only [usedBits] <;> decide
  have hop : v &&& opcodeMask = w &&& opcodeMask := by
    rw [← hused, ← BitVec.and_assoc, h, BitVec.and_assoc]
  rw [opcodeOf, opcodeOf, (and_opcodeMask_eq_iff v w).mp hop]

/-- A Word that agrees with `v` in the used bits of what `v` decodes to holds the same fields, so the decoder answers
the same. -/
theorem decode_eq_of_and_usedBits_eq {v w : Word} (h : v &&& usedBits (decode v) = w &&& usedBits (decode v)) :
    decode w = decode v := by
  have hop : opcodeOf w = opcodeOf v := opcodeOf_eq_of_and_usedBits_eq h
  cases ho : opcodeOf v <;> rw [ho] at hop
  case add | and | jsr =>
    simp only [decode, ho, hop] at h ⊢
    -- the mode bit is a used bit, so both Words have the form that `v` has
    split at h
    all_goals
      simp (disch := decide) only [usedBits, usedBitsRR, usedBitsRI, opcodeMask, and_or_eq_iff, and_fieldMask_eq_iff,
        fieldAt_one, BitVec.ofBool_eq_iff_eq] at h
      simp_all [regAt]
  case trap =>
    simp (disch := decide) only [decode_of_trap ho, usedBits_decodeTrap, usedBitsVEC8, and_or_eq_iff,
      and_fieldMask_eq_iff] at h
    rw [decode_of_trap ho, decode_of_trap hop, h.2]
  -- every other opcode has one row
  all_goals
    simp only [decode, ho] at h
    simp (disch := decide) only [usedBits, usedBitsPC9, usedBitsOFF6, opcodeMask, and_or_eq_iff, and_fieldMask_eq_iff,
      fieldAt_one, BitVec.ofBool_eq_iff_eq] at h
    simp only [decode, ho, hop, regAt, h]

/-- The encoder writes every field where the decoder reads it. -/
theorem encode_decode_and_usedBits (w : Word) :
    encode (decode w) &&& usedBits (decode w) = w &&& usedBits (decode w) := by
  cases ho : opcodeOf w
  all_goals have hop := (fieldAt_eq_opcodeNumber_iff w _).mpr ho
  case trap =>
    simp (disch := decide) [decode_of_trap ho, usedBits_decodeTrap, usedBitsVEC8, encode_decodeTrap, and_or_eq_iff,
      opcodeMask, and_fieldMask_eq_iff, placeOpcode, fieldAt_place, fieldAt_place_of_disjoint, hop]
  case add | and | jsr =>
    simp only [decode, ho]
    -- the form that the mode bit selects writes that bit back
    split
    all_goals
      simp (disch := decide) only [usedBits, usedBitsRR, usedBitsRI, opcodeMask, and_or_eq_iff, and_fieldMask_eq_iff,
        encode, placeOpcode, placeReg, placeBit, regField_regAt, fieldAt_or, fieldAt_place,
        fieldAt_place_of_disjoint, BitVec.or_zero, BitVec.zero_or, hop, true_and, and_true]
      simp only [fieldAt_one, *]
  all_goals
    simp only [decode, ho]
    simp (disch := decide) [usedBits, usedBitsPC9, usedBitsOFF6, opcodeMask, and_or_eq_iff, and_fieldMask_eq_iff,
      encode, placeOpcode, placeReg, placeBit, regField_regAt, ← fieldAt_one, fieldAt_place,
      fieldAt_place_of_disjoint, hop]

/-- Settles O5: to agree in the used bits is to agree in every field the decoder reads. -/
theorem ignoredBitsTakeNoPartInDecoding : Obligations.IgnoredBitsTakeNoPartInDecoding :=
  ⟨fun _ _ h => decode_eq_of_and_usedBits_eq h, encode_decode_and_usedBits⟩

/-- The Word of a TRAP holds its vector. -/
theorem decode_placeOpcode_trap_or_place (v : BitVec 8) : decode (placeOpcode .trap ||| place 0 v) = decodeTrap v := by
  have hop : opcodeOf (placeOpcode .trap ||| place 0 v) = .trap := by
    simp (disch := decide) [← fieldAt_eq_opcodeNumber_iff, placeOpcode, fieldAt_place, fieldAt_place_of_disjoint]
  rw [decode_of_trap hop]
  simp (disch := decide) [placeOpcode, fieldAt_place, fieldAt_place_of_disjoint]

/-- Settles O2: the fields of a format do not overlap, so each is read back from the Word as it was placed. -/
theorem decodingAnEncodedInstructionGivesItBack : Obligations.DecodingAnEncodedInstructionGivesItBack := by
  intro i hi
  cases i
  case trapUndefined v =>
    refine (decode_placeOpcode_trap_or_place v).trans ?_
    rcases decodeTrap_cases v with ⟨-, hv⟩ | ⟨hdec, -⟩
    · simp [Instr.wellFormed, hv] at hi
    · exact hdec
  case trapGetc | trapOut | trapPuts | trapIn | trapPutsp | trapHalt => exact decode_placeOpcode_trap_or_place _
  all_goals
    simp (disch := decide) [encode, decode, opcodeOf, placeOpcode, placeReg, placeBit, regAt, fieldAt_place,
      fieldAt_place_of_disjoint, bitAt_place, opcodeMap_opcodeNumber]

/-- A TRAP that decodes to the fallback row has its own vector, none of the six. -/
theorem eq_fieldAt_of_decode_eq_trapUndefined {w : Word} {v : BitVec 8} (h : decode w = .trapUndefined v) :
    v = fieldAt w 0 8 ∧ definedVector v = false := by
  constructor
  · have he := encode_decode_and_usedBits w
    rw [h] at he
    have hfields : opcodeNumber .trap = fieldAt w 12 4 ∧ v = fieldAt w 0 8 := by
      simpa (disch := decide) [encode, usedBits, usedBitsVEC8, opcodeMask, placeOpcode, and_or_eq_iff,
        and_fieldMask_eq_iff, fieldAt_place, fieldAt_place_of_disjoint] using he
    exact hfields.2
  · have hwf := (everyWordLiesInTheRowItDecodesTo w).2
    rw [h] at hwf
    simpa [Instr.wellFormed] using hwf

/-! Samples and numbers -/

/-- Settles O1: twelve closed evaluations of the decoder. -/
theorem sampleWordsDecodeAsTheSpecSays : Obligations.SampleWordsDecodeAsTheSpecSays := by
  unfold Obligations.SampleWordsDecodeAsTheSpecSays
  decide

/-- Settles O57: no column looks at the operands, so each row is one closed evaluation. -/
theorem tableColumnsAreTheSpecsNumbers : Obligations.TableColumnsAreTheSpecsNumbers := by
  intro i
  cases i
  all_goals
    simp only [tableRow, usedBits]
    decide

end Sys2Proof
end

section
/-!
PROOFS. What every instruction leaves alone (40_instruction_cycle.md R130).

The idea: the columns of R130 for one instruction form a relation between states that holds of each shared operation the
instruction may use and is transitive. An instruction is a chain of such operations, so its frame is put together from
theirs.
-/

namespace Sys2Proof.Machine

/-- The columns of R130 other than memory, for the instruction `i`; and that the console streams only move forward. -/
structure ExecFrame (i : Instr) (s t : State) : Prop where
  reg : SameRegsExcept (writtenRegs i) s t
  pc : writesPc i = false → t.pc = s.pc
  run : endsRun i = false → t.run = s.run
  ir : t.ir = s.ir
  cancelReq : t.cancelReq = s.cancelReq
  conout : writesConsole i = false → t.conout = s.conout
  output : ∃ out, t.conout = s.conout ++ out
  kbq : takesInput i = false → readsMemory i = false → t.kbq = s.kbq
  input : ∃ taken, s.kbq = taken ++ t.kbq

namespace ExecFrame

variable {i : Instr} {s t u : State}

theorem trans (h : ExecFrame i s t) (k : ExecFrame i t u) : ExecFrame i s u where
  reg r hr := (k.reg r hr).trans (h.reg r hr)
  pc hi := (k.pc hi).trans (h.pc hi)
  run hi := (k.run hi).trans (h.run hi)
  ir := k.ir.trans h.ir
  cancelReq := k.cancelReq.trans h.cancelReq
  conout hi := (k.conout hi).trans (h.conout hi)
  output := by
    obtain ⟨p, hp⟩ := h.output
    obtain ⟨q, hq⟩ := k.output
    exact ⟨p ++ q, by rw [hq, hp, List.append_assoc]⟩
  kbq ht hr := (k.kbq ht hr).trans (h.kbq ht hr)
  input := by
    obtain ⟨p, hp⟩ := h.input
    obtain ⟨q, hq⟩ := k.input
    exact ⟨p ++ q, by rw [hp, hq, List.append_assoc]⟩

/-- An operation that keeps both console streams. -/
theorem of_sameConsole (hreg : SameRegsExcept (writtenRegs i) s t) (hpc : writesPc i = false → t.pc = s.pc)
    (hrun : endsRun i = false → t.run = s.run) (hir : t.ir = s.ir) (hcancel : t.cancelReq = s.cancelReq)
    (hcon : SameConsole s t) : ExecFrame i s t where
  reg := hreg
  pc := hpc
  run := hrun
  ir := hir
  cancelReq := hcancel
  conout _ := hcon.2
  output := ⟨[], by rw [hcon.2, List.append_nil]⟩
  kbq _ _ := hcon.1
  input := ⟨[], hcon.1.symm⟩

theorem refl (s : State) : ExecFrame i s s :=
  of_sameConsole (fun _ _ => rfl) (fun _ => rfl) (fun _ => rfl) rfl rfl ⟨rfl, rfl⟩

theorem setReg {r : Reg} (hr : r ∈ writtenRegs i) (s : State) (v : Word) : ExecFrame i s (s.setReg r v) := by
  refine of_sameConsole (fun q hq => ?_) (fun _ => rfl) (fun _ => rfl) rfl rfl ⟨rfl, rfl⟩
  rw [State.reg_setReg, if_neg fun e : q = r => hq (e ▸ hr)]

theorem setRegCC {r : Reg} (hr : r ∈ writtenRegs i) (s : State) (v : Word) : ExecFrame i s (s.setRegCC r v) :=
  (setReg hr s v).trans (of_sameConsole (fun _ _ => rfl) (fun _ => rfl) (fun _ => rfl) rfl rfl ⟨rfl, rfl⟩)

theorem linkR7 (hr : 7 ∈ writtenRegs i) (s : State) : ExecFrame i s s.linkR7 :=
  setReg hr s s.pc

theorem setPc (hi : writesPc i = true) (s : State) (v : Word) : ExecFrame i s (s.setPc v) :=
  of_sameConsole (fun _ _ => rfl) (fun h => absurd hi (by simp [h])) (fun _ => rfl) rfl rfl ⟨rfl, rfl⟩

theorem setRun (hi : endsRun i = true) (s : State) (r : RunState) : ExecFrame i s (s.setRun r) :=
  of_sameConsole (fun _ _ => rfl) (fun _ => rfl) (fun h => absurd hi (by simp [h])) rfl rfl ⟨rfl, rfl⟩

theorem memWrite (s : State) (a v : Word) : ExecFrame i s (s.memWrite a v) :=
  of_sameConsole (fun _ _ => rfl) (fun _ => rfl) (fun _ => rfl) rfl rfl ⟨rfl, rfl⟩

theorem appendConout (hi : writesConsole i = true) (s : State) (out : List OutEvent) :
    ExecFrame i s (s.setConout (s.conout ++ out)) where
  reg _ _ := rfl
  pc _ := rfl
  run _ := rfl
  ir := rfl
  cancelReq := rfl
  conout h := absurd hi (by simp [h])
  output := ⟨out, rfl⟩
  kbq _ _ := rfl
  input := ⟨[], rfl⟩

theorem takeByte (hi : takesInput i = true) {b : Byte} {q : List Byte} (hq : s.kbq = b :: q) :
    ExecFrame i s (s.setKbq q) where
  reg _ _ := rfl
  pc _ := rfl
  run _ := rfl
  ir := rfl
  cancelReq := rfl
  conout _ := rfl
  output := ⟨[], (List.append_nil _).symm⟩
  kbq h := absurd hi (by simp [h])
  input := ⟨[b], hq⟩

/-- Reads, and the output between them, of an instruction that may do both. -/
theorem of_walkFrame (hr : readsMemory i = true) (hc : writesConsole i = false → t.conout = s.conout)
    (h : WalkFrame s t) : ExecFrame i s t where
  reg r _ := h.reg r
  pc _ := h.pc
  run _ := h.run
  ir := h.ir
  cancelReq := h.cancelReq
  conout := hc
  output := by
    obtain ⟨bs, hbs⟩ := h.conout
    exact ⟨_, hbs⟩
  kbq _ hi := absurd hr (by simp [hi])
  input := h.kbq

theorem memRead (hr : readsMemory i = true) (s : State) (a : Word) : ExecFrame i s (s.memRead a).2 :=
  of_walkFrame hr (fun _ => State.conout_memRead s a) (walkFrame_memRead s a)

theorem loadTo {r : Reg} (hi : readsMemory i = true) (hr : r ∈ writtenRegs i) (s : State) (a : Word) :
    ExecFrame i s (s.loadTo r a) :=
  (memRead hi s a).trans (setRegCC hr _ _)

theorem putString {chars : Word → List Byte} (hr : readsMemory i = true) (hc : writesConsole i = true)
    (h : s.putString chars = .next t) : ExecFrame i s t := by
  obtain ⟨u, rfl, hu⟩ := State.putString_next h
  exact (of_walkFrame hr (fun hi => absurd hc (by simp [hi])) (stringWalk_frame hu)).trans (appendConout hc u [.flush])

end ExecFrame

open ExecFrame in
/-- Every instruction is a chain of operations that its row allows. -/
theorem execFrame_exec {i : Instr} {s t : State} (h : exec i s = .next t) : ExecFrame i s t := by
  cases i
  case trapGetc =>
    obtain ⟨b, q, hq, rfl⟩ := execTrapGetc_next h
    exact .trans (linkR7 (by decide) s) (.trans (takeByte rfl hq) (setRegCC (by decide) _ _))
  case trapIn =>
    obtain ⟨b, q, hq, rfl⟩ := execTrapIn_next h
    rw [State.conOutAll_eq]
    exact .trans (linkR7 (by decide) s) <| .trans (appendConout rfl _ _) <| .trans (takeByte rfl hq) <|
      .trans (appendConout rfl _ [.byte b]) <| .trans (appendConout rfl _ [.flush]) (setRegCC (by decide) _ _)
  case trapPuts | trapPutsp => exact .trans (linkR7 (by decide) s) (putString rfl rfl h)
  all_goals obtain rfl := Host.Outcome.next.inj h
  case br n z p off =>
    split
    · exact setPc rfl s _
    · exact refl s
  case jmp baseR => exact setPc rfl s _
  case jsr | jsrr => exact .trans (linkR7 (by simp [writtenRegs]) s) (setPc rfl _ _)
  case ld | ldr => exact loadTo rfl (by simp [writtenRegs]) s _
  case ldi dr off => exact .trans (memRead rfl s _) (loadTo rfl (by simp [writtenRegs]) _ _)
  case st | str => exact memWrite s _ _
  case sti sr off => exact .trans (memRead rfl s _) (memWrite _ _ _)
  case rti | res => exact setRun rfl s _
  case trapOut =>
    exact .trans (linkR7 (by decide) s) (.trans (appendConout rfl _ [.byte _]) (appendConout rfl _ [.flush]))
  case trapHalt | trapUndefined => exact .trans (linkR7 (by simp [writtenRegs]) s) (setRun rfl _ _)
  -- ADD, AND, NOT and LEA: one flagged register write
  all_goals exact setRegCC (by simp [writtenRegs]) s _

/-- Settles O31: the register column of the frame. -/
theorem onlyTheListedRegistersAreWritten : Obligations.OnlyTheListedRegistersAreWritten :=
  fun _ _ _ h => (execFrame_exec h).reg

/-- Settles O32: the columns `pc`, `run`, `ir` and `cancel_req` of the frame. -/
theorem onlyTransfersWritePcAndOnlyEndsWriteRun : Obligations.OnlyTransfersWritePcAndOnlyEndsWriteRun := by
  intro i s t h
  have frame := execFrame_exec h
  exact ⟨frame.pc, frame.run, frame.ir, frame.cancelReq⟩

/-- Settles O34: the two console columns of the frame. -/
theorem onlyConsoleRoutinesUseTheConsole : Obligations.OnlyConsoleRoutinesUseTheConsole :=
  fun _ _ _ h => ⟨(execFrame_exec h).conout, (execFrame_exec h).kbq⟩

end Sys2Proof.Machine
end

section
/-!
PROOFS. What instructions do to memory: the words they leave alone (40_instruction_cycle.md R130), what a later fetch or
load sees of a store (20_memory.md section 6; 95_test_vectors.md S5, S6), and the read primitive (20_memory.md R54,
R55).
-/

namespace Sys2Proof.Machine

/-- Settles O27: the three clauses about KBSR, the frame of a poll, and that a read elsewhere does nothing. -/
theorem readsPollOnlyAtKbsr : Obligations.ReadsPollOnlyAtKbsr := by
  intro s a h
  refine ⟨State.memRead_fst_eq_readValue h a, State.word_memRead_eq_wordAfterRead h a,
    State.kbq_memRead_eq_queueAfterRead s a, fun r _ => State.reg_memRead s a r, State.pc_memRead s a,
    State.cond_memRead s a, State.conout_memRead s a, sameControl_memRead s a, fun ha => ?_⟩
  rw [State.memRead_of_ne ha]

/-! What instructions leave alone -/

theorem State.word_loadTo (s : State) (r : Reg) (a x : Word) : (s.loadTo r a).word x = (s.memRead a).2.word x := rfl

/-- PUTS and PUTSP change no Word but, by their reads, the two keyboard words. -/
theorem State.word_putString {s t : State} {chars : Word → List Byte} (h : s.mem.wf) (ht : s.putString chars = .next t)
    {x : Word} (hs : x ≠ config.kbsrAddr) (hd : x ≠ config.kbdrAddr) : t.word x = s.word x := by
  obtain ⟨u, rfl, hu⟩ := State.putString_next ht
  exact (stringWalk_memory h hu).2 x hs hd

/-- Settles O33: by whether the instruction stores, reads memory, or does neither. -/
theorem onlyTheStoreAddressAndPollsChangeMemory : Obligations.OnlyTheStoreAddressAndPollsChangeMemory := by
  intro i s t h ht x hx hk
  cases i
  case trapPuts | trapPutsp => exact State.word_putString (s := s.linkR7) h ht (hk rfl).1 (hk rfl).2
  case trapGetc =>
    obtain ⟨b, q, -, rfl⟩ := execTrapGetc_next ht
    rfl
  case trapIn =>
    obtain ⟨b, q, -, rfl⟩ := execTrapIn_next ht
    rw [State.conOutAll_eq]
    rfl
  all_goals obtain rfl := Host.Outcome.next.inj ht
  case st | str => rw [State.word_memWrite h, if_neg fun e => hx (congrArg some e.symm)]
  case sti sr off =>
    rw [State.word_memWrite (State.wf_memRead h _), State.memRead_fst_eq_readValue h,
      if_neg fun e => hx (congrArg some e.symm), State.word_memRead h _ (hk rfl).1 (hk rfl).2]
  case ld | ldr => rw [State.word_loadTo, State.word_memRead h _ (hk rfl).1 (hk rfl).2]
  case ldi dr off =>
    rw [State.word_loadTo, State.word_memRead (State.wf_memRead h _) _ (hk rfl).1 (hk rfl).2,
      State.word_memRead h _ (hk rfl).1 (hk rfl).2]
  case br n z p off => split <;> rfl
  -- the others have no access to memory
  all_goals rfl

/-! What a later access sees of a store -/

/-- A storing instruction leaves its register at its address. -/
theorem word_storeAddress_exec {i : Instr} {s t : State} {r : Reg} {a : Word} (h : s.mem.wf) (ht : exec i s = .next t)
    (hr : storedReg i = some r) (ha : storeAddress i s = some a) : t.word a = s.reg r := by
  cases i <;> cases hr <;> cases ha
  all_goals obtain rfl := Host.Outcome.next.inj ht
  case st.refl.refl | str.refl.refl => rw [State.word_memWrite h, if_pos rfl]
  case sti.refl.refl =>
    rw [State.word_memWrite (State.wf_memRead h _), State.memRead_fst_eq_readValue h, if_pos rfl, State.reg_memRead]

/-- Settles O29: away from KBSR the fetch reads the stored Word. -/
theorem aStoreIsSeenByTheNextFetch : Obligations.AStoreIsSeenByTheNextFetch := by
  rintro i s t r a h ht hr ha rfl hne
  rw [State.ir_fetch, State.memRead_of_ne hne]
  exact word_storeAddress_exec h ht hr ha

/-- A load from anywhere but KBSR loads the stored Word. -/
theorem State.reg_loadTo_of_ne {s : State} {a : Word} (ha : a ≠ config.kbsrAddr) (r : Reg) :
    (s.loadTo r a).reg r = s.word a := by
  rw [State.loadTo, State.memRead_of_ne ha, State.reg_setRegCC, if_pos rfl]

/-- STI through a pointer that is not at KBSR stores where the stored Word points. -/
theorem execSti_of_ne {s : State} {off : BitVec 9} (h : s.pcRel9 off ≠ config.kbsrAddr) (sr : Reg) :
    execSti sr off s = .next (s.memWrite (s.word (s.pcRel9 off)) (s.reg sr)) := by
  rw [execSti, State.memRead_of_ne h]

/-- LDI through a pointer that is not at KBSR loads from where the stored Word points. -/
theorem execLdi_of_ne {s : State} {off : BitVec 9} (h : s.pcRel9 off ≠ config.kbsrAddr) (dr : Reg) :
    execLdi dr off s = .next (s.loadTo dr (s.word (s.pcRel9 off))) := by
  rw [execLdi, State.memRead_of_ne h]

/-- Settles O30: neither access is of KBSR, so the store and the load are of one stored Word; for STI and LDI that Word
is not the pointer, which both read. -/
theorem loadsGiveBackWhatStoresPut : Obligations.LoadsGiveBackWhatStoresPut := by
  constructor
  · intro s t u sr dr off off' p h hne hst ha hld
    obtain rfl := Host.Outcome.next.inj hst
    obtain rfl := Host.Outcome.next.inj hld
    rw [ha, State.reg_loadTo_of_ne hne, State.word_setPc, State.word_memWrite h, if_pos rfl]
  · intro s t u sr dr off off' p h hne hptr hkeep hsti ha hldi
    obtain rfl := Host.Outcome.next.inj ((execSti_of_ne hne sr).symm.trans hsti)
    obtain rfl := Host.Outcome.next.inj ((execLdi_of_ne (ha.symm ▸ hne) dr).symm.trans hldi)
    have hpointer : (s.memWrite (s.word (s.pcRel9 off)) (s.reg sr)).word (s.pcRel9 off) = s.word (s.pcRel9 off) := by
      rw [State.word_memWrite h, if_neg hkeep.symm]
    rw [ha, State.word_setPc, hpointer, State.reg_loadTo_of_ne hptr, State.word_setPc, State.word_memWrite h,
      if_pos rfl]

end Sys2Proof.Machine
end

section
/-!
PROOFS. The results of JSRR (42_control_transfer.md R154), of the trap routines (44_trap.md R182 to R188) and of RTI and
RES (45_undefined_opcodes.md).

The idea for PUTS and PUTSP: along a string that ends before KBSR no read polls, so the walk only writes the characters
of its Words; that it ends within its bound is known of every walk.
-/

namespace Sys2Proof.Machine

/-! JSRR -/

/-- Settles O42: the base is read after the link, so R7 as base is the return address. -/
theorem jsrrLinksBeforeItReadsTheBase : Obligations.JsrrLinksBeforeItReadsTheBase := by
  intro s baseR
  refine ⟨_, rfl, reg_seven_setPc_linkR7 s _, ?_⟩
  rw [← State.reg_linkR7]
  exact transferred_setPc_linkR7 s _

/-! GETC and IN -/

/-- A byte is never negative. -/
theorem condOf_zext8 (b : Byte) : condOf (zext8 b) = if b = 0 then .zero else .pos := by
  revert b
  decide

/-- What the link and a flagged write of R0 do to the registers. -/
theorem sameRegsExcept_setRegCC_linkR7 {s t : State} (h : ∀ r, t.reg r = s.linkR7.reg r) (v : Word) :
    SameRegsExcept [0, 7] s (t.setRegCC 0 v) := by
  intro r hr
  obtain ⟨h0, h7⟩ : r ≠ 0 ∧ r ≠ 7 := by simpa using hr
  rw [State.reg_setRegCC, if_neg h0, h, State.reg_linkR7, if_neg h7]

/-- Settles O48: the flagged write of R0 comes last and leaves the link in R7. -/
theorem getcTakesAByteIntoR0 : Obligations.GetcTakesAByteIntoR0 := by
  intro s b q hq
  refine ⟨_, execTrapGetc_of_cons hq, ?_, ?_, condOf_zext8 b, rfl, rfl,
    sameRegsExcept_setRegCC_linkR7 (fun _ => rfl) _, rfl, fun _ => rfl, rfl, rfl, rfl⟩
  · rw [State.reg_setRegCC, if_neg (by decide), State.reg_setKbq, State.reg_linkR7, if_pos rfl]
  · rw [State.reg_setRegCC, if_pos rfl, zext8]

/-- Settles O49: as for GETC, with the prompt before the take and the echo and the flush after it. -/
theorem inPromptsTakesAndEchoesAByte : Obligations.InPromptsTakesAndEchoesAByte := by
  intro s b q hq
  refine ⟨_, execTrapIn_of_cons hq, ?_⟩
  rw [State.conOutAll_eq]
  refine ⟨?_, ?_, condOf_zext8 b, rfl, ?_, sameRegsExcept_setRegCC_linkR7 (fun _ => rfl) _, rfl, fun _ => rfl, rfl,
    rfl, rfl⟩
  · rw [State.reg_setRegCC, if_neg (by decide)]
    exact (State.reg_linkR7 s 7).trans (if_pos rfl)
  · rw [State.reg_setRegCC, if_pos rfl, zext8]
  · simp

/-- Settles O12: without a byte the take has no result, before the prompt and after it. -/
theorem getcAndInHaveNoResultWithoutAByte : Obligations.GetcAndInHaveNoResultWithoutAByte := by
  intro s hq
  have hprompt : (s.linkR7.conOutAll config.inPrompt).kbq = [] := by rw [State.conOutAll_eq]; exact hq
  constructor
  · rw [exec, execTrapGetc, State.kbdTake_nil (s := s.linkR7) hq]
  · rw [exec, execTrapIn, State.kbdTake_nil hprompt]

/-! OUT, HALT and the faults -/

theorem lowByte_eq_ofNat (w : Word) : lowByte w = BitVec.ofNat 8 (w.toNat % 256) := by
  apply BitVec.eq_of_toNat_eq
  simp [lowByte]

theorem highByte_eq_ofNat (w : Word) : highByte w = BitVec.ofNat 8 (w.toNat / 256) := by
  apply BitVec.eq_of_toNat_eq
  simp [highByte, Nat.shiftRight_eq_div_pow]

/-- The link writes R7 alone. -/
theorem reg_linkR7_frame (s : State) : s.linkR7.reg 7 = s.pc ∧ SameRegsExcept [7] s s.linkR7 := by
  refine ⟨by rw [State.reg_linkR7, if_pos rfl], fun r hr => ?_⟩
  rw [State.reg_linkR7, if_neg (List.ne_of_not_mem_cons hr)]

/-- Settles O50: the link leaves R0 as it was, so the byte written is R0's own. -/
theorem outWritesTheLowByteOfR0 : Obligations.OutWritesTheLowByteOfR0 := by
  intro s
  obtain ⟨hlink, hregs⟩ := reg_linkR7_frame s
  refine ⟨_, rfl, ?_, hlink, hregs, rfl, rfl, fun _ => rfl, rfl, rfl, rfl, rfl⟩
  rw [← lowByte_eq_ofNat]
  simp

/-- Settles O54: the link, then a write of `run` alone. -/
theorem haltEndsTheRun : Obligations.HaltEndsTheRun := by
  intro s
  obtain ⟨hlink, hregs⟩ := reg_linkR7_frame s
  exact ⟨_, rfl, rfl, hlink, hregs, rfl, rfl, fun _ => rfl, ⟨rfl, rfl⟩, rfl, rfl⟩

/-- Settles O55: the link, then the fault, which writes `run` alone; so for any vector. -/
theorem undefinedTrapVectorsFault : Obligations.UndefinedTrapVectorsFault := by
  intro s v _
  obtain ⟨hlink, hregs⟩ := reg_linkR7_frame s
  exact ⟨_, rfl, rfl, hlink, hregs, rfl, rfl, fun _ => rfl, ⟨rfl, rfl⟩, rfl, rfl⟩

/-- Settles O56: both raise the fault at once, without a link. -/
theorem rtiAndResFault : Obligations.RtiAndResFault := by
  rintro s i (rfl | rfl)
  all_goals exact ⟨_, rfl, rfl, fun _ _ => rfl, rfl, rfl, fun _ => rfl, ⟨rfl, rfl⟩, rfl, rfl⟩

/-! PUTS and PUTSP -/

/-- The non-zero Words `ws` stand from `a` on, a zero Word after them, and none of these addresses is KBSR. -/
def Memory.stringAt (m : Memory) : Word → List Word → Prop
  | a, [] => a ≠ config.kbsrAddr ∧ m.read a.toNat = 0x0000
  | a, w :: ws => a ≠ config.kbsrAddr ∧ m.read a.toNat = w ∧ w ≠ 0x0000 ∧ m.stringAt (a + 1) ws

theorem add_ofNat_succ (a : Word) (k : Nat) : a + BitVec.ofNat 16 (k + 1) = a + 1 + BitVec.ofNat 16 k := by
  rw [BitVec.add_assoc, Nat.add_comm, BitVec.ofNat_add]
  rfl

/-- A string said address by address, as the claims do. -/
theorem State.stringAt_mem {s : State} {a : Word} {ws : List Word} (hne : ∀ w ∈ ws, w ≠ 0x0000)
    (hws : ∀ (k : Nat) (h : k < ws.length), s.word (a + BitVec.ofNat 16 k) = ws[k])
    (hend : s.word (a + BitVec.ofNat 16 ws.length) = 0x0000)
    (hkbsr : ∀ k ≤ ws.length, a + BitVec.ofNat 16 k ≠ config.kbsrAddr) : s.mem.stringAt a ws := by
  have hfirst : ∀ b : Word, b + BitVec.ofNat 16 0 = b := BitVec.add_zero
  induction ws generalizing a with
  | nil => exact ⟨hfirst a ▸ hkbsr 0 (le_refl _), hfirst a ▸ hend⟩
  | cons w ws ih =>
    refine ⟨hfirst a ▸ hkbsr 0 (Nat.zero_le _), hfirst a ▸ hws 0 (Nat.zero_lt_succ _), hne w List.mem_cons_self, ?_⟩
    refine ih (fun v hv => hne v (List.mem_cons_of_mem w hv)) (fun k hk => ?_) ?_ (fun k hk => ?_)
    · rw [← add_ofNat_succ]
      exact hws (k + 1) (Nat.succ_lt_succ hk)
    · rw [← add_ofNat_succ]
      exact hend
    · rw [← add_ofNat_succ]
      exact hkbsr (k + 1) (Nat.succ_le_succ hk)

/-- A walk along a string writes the characters of its Words and changes nothing else. -/
theorem stringWalk_of_stringAt {chars : Word → List Byte} {fuel : Nat} {a : Word} {ws : List Word} {s t : State}
    (h : s.mem.stringAt a ws) (ht : stringWalk chars fuel a s = some t) :
    t = s.setConout (s.conout ++ (ws.flatMap chars).map .byte) := by
  induction ws generalizing fuel a s with
  | nil =>
    obtain ⟨ha, hzero⟩ := h
    cases fuel with
    | zero => simp [stringWalk] at ht
    | succ fuel =>
      have hend : s.word a = 0x0000 := hzero
      simp only [stringWalk, State.memRead_of_ne ha, hend, if_true, Option.some.injEq] at ht
      simp [← ht, State.setConout]
  | cons w ws ih =>
    obtain ⟨ha, hread, hw, hrest⟩ := h
    cases fuel with
    | zero => simp [stringWalk] at ht
    | succ fuel =>
      have hword : s.word a = w := hread
      simp only [stringWalk, State.memRead_of_ne ha, hword, if_neg hw, State.conOutAll_eq] at ht
      obtain rfl := ih (s := s.setConout (s.conout ++ (chars w).map .byte)) hrest ht
      simp [State.setConout]

/-- What PUTS and PUTSP do with a string: R7 is linked, the characters and a flush are written, and nothing else
changes. -/
theorem State.putString_linkR7_of_stringAt {s : State} (h : s.mem.wf) (chars : Word → List Byte) {ws : List Word}
    (hws : s.mem.stringAt (s.reg 0) ws) :
    ∃ t, s.linkR7.putString chars = .next t ∧ t.conout = s.conout ++ (ws.flatMap chars).map .byte ++ [.flush] ∧
      t.reg 7 = s.pc ∧ SameRegsExcept [7] s t ∧ t.cond = s.cond ∧ t.pc = s.pc ∧ SameWords s t ∧ t.kbq = s.kbq ∧
      SameControl s t := by
  obtain ⟨t, ht, hwalk⟩ := State.putString_eq (s := s.linkR7) h chars
  rw [State.reg_linkR7, if_neg (by decide)] at hwalk
  obtain rfl := stringWalk_of_stringAt (s := s.linkR7) hws hwalk
  obtain ⟨hlink, hregs⟩ := reg_linkR7_frame s
  exact ⟨_, ht, rfl, hlink, hregs, rfl, rfl, fun _ => rfl, rfl, rfl, rfl, rfl⟩

theorem map_byte_flatMap_putsChars (ws : List Word) :
    (ws.flatMap putsChars).map OutEvent.byte = ws.map fun w => .byte (BitVec.ofNat 8 (w.toNat % 256)) := by
  induction ws with
  | nil => rfl
  | cons w ws ih => simp [putsChars, lowByte_eq_ofNat, ih]

theorem map_byte_putspChars (w : Word) :
    (putspChars w).map OutEvent.byte =
      .byte (BitVec.ofNat 8 (w.toNat % 256)) ::
        if w.toNat / 256 = 0 then [] else [.byte (BitVec.ofNat 8 (w.toNat / 256))] := by
  have hhigh : highByte w = 0x00 ↔ w.toNat / 256 = 0 := by
    rw [highByte_eq_ofNat, ← BitVec.toNat_inj]
    have := w.isLt
    simp only [BitVec.toNat_ofNat, Nat.reducePow, BitVec.ofNat_eq_ofNat, Nat.zero_mod, Nat.div_eq_zero_iff,
      OfNat.ofNat_ne_zero, false_or]
    omega
  simp only [putspChars, hhigh]
  split <;> simp [lowByte_eq_ofNat, highByte_eq_ofNat]

/-- Settles O51: PUTS writes one character for each Word. -/
theorem putsWritesTheLowByteOfEachWord : Obligations.PutsWritesTheLowByteOfEachWord := by
  intro s ws h hne hws hend hkbsr
  rw [← map_byte_flatMap_putsChars]
  exact State.putString_linkR7_of_stringAt h putsChars (State.stringAt_mem hne hws hend hkbsr)

/-- Settles O52: PUTSP writes one or two characters for each Word. -/
theorem putspWritesBothBytesOfEachWord : Obligations.PutspWritesBothBytesOfEachWord := by
  intro s ws h hne hws hend hkbsr
  simp only [← map_byte_putspChars, ← List.map_flatMap]
  exact State.putString_linkR7_of_stringAt h putspChars (State.stringAt_mem hne hws hend hkbsr)

end Sys2Proof.Machine
end

section
/-!
PROOFS. The step (40_instruction_cycle.md R121 to R128): the fetch at KBSR, waiting, cancellation, the ways out of
RUNNING, and the console streams.
-/

namespace Sys2Proof.Machine

/-! Cancelled, ended -/

/-- Settles O9: the request is looked at before anything else. -/
theorem cancellationIsSampledBeforeTheFetch : Obligations.CancellationIsSampledBeforeTheFetch := by
  intro s hr hc
  rw [step_running hr, if_pos hc]
  rfl

/-- Settles O13: the step of an ended run is a stutter. -/
theorem anEndedRunIsFrozen : Obligations.AnEndedRunIsFrozen :=
  fun _ h => step_eq_self_of_ended h

/-! The fetch at KBSR (R123) -/

/-- At KBSR the core never waits: no stored Word is fetched there (R127). -/
theorem State.awaitsInput_of_pc_eq_kbsr {s : State} (hp : s.pc = config.kbsrAddr) : s.awaitsInput = false := by
  simp [State.awaitsInput, State.inputTrapNext, hp]

/-- Settles O8: what the poll answers is a BR with no mask bit, or an RTI. -/
theorem fetchFromKbsrPollsTheKeyboard : Obligations.FetchFromKbsrPollsTheKeyboard := by
  intro s h hr hc hp
  have hir : s.fetch.ir = s.readValue s.pc := State.memRead_fst_eq_readValue h s.pc
  have hvalue : s.readValue s.pc = if s.kbq = [] then 0x0000 else 0x8000 := if_pos hp
  have hkbq : s.fetch.kbq = s.kbq.tail := (State.kbq_memRead_eq_queueAfterRead s s.pc).trans (if_pos hp)
  have hword : ∀ x, s.fetch.word x = s.wordAfterRead s.pc x := State.word_memRead_eq_wordAfterRead h s.pc
  rw [step_eq_exec_fetch hr hc (State.awaitsInput_of_pc_eq_kbsr hp)]
  by_cases hq : s.kbq = []
  · have hdec : decode s.fetch.ir = .br false false false 0 := by rw [hir, hvalue, if_pos hq]; decide
    rw [hdec, if_pos hq]
    exact ⟨s.fetch, rfl, rfl, hir, fun r _ => State.reg_fetch s r, State.cond_fetch s, State.conout_fetch s,
      (State.cancelReq_fetch s).trans hc, hkbq, hword, (State.run_fetch s).trans hr⟩
  · have hpoll : s.fetch.ir = 0x8000 := by rw [hir, hvalue, if_neg hq]
    have hdec : decode s.fetch.ir = .rti := by rw [hpoll]; decide
    rw [hdec, if_neg hq]
    exact ⟨_, rfl, rfl, hir, fun r _ => State.reg_fetch s r, State.cond_fetch s, State.conout_fetch s,
      (State.cancelReq_fetch s).trans hc, hkbq, hword, congrArg (RunState.faulted .illegalOpcode) hpoll⟩

/-! Waiting for input (R127) -/

theorem State.awaitsInput_iff (s : State) :
    s.awaitsInput = true ↔ s.pc ≠ config.kbsrAddr ∧ takesInput (decode (s.word s.pc)) = true ∧ s.kbq = [] := by
  simp [State.awaitsInput, State.inputTrapNext, State.kbdPoll, and_assoc]

/-- A Word with the opcode TRAP and the vector of GETC or IN, whatever its ignored bits. -/
theorem takesInput_decode_of_and {w : Word} (h : w &&& 0xF0FF = 0xF020 ∨ w &&& 0xF0FF = 0xF023) :
    takesInput (decode w) = true := by
  rcases h with h | h
  · have hrow : vectorRow 0x20 = (0xF020, 0xF0FF) := by decide
    have hdec : decode w = decodeTrap 0x20 := decode_of_mem_vectorRow (by rw [hrow]; exact h)
    rw [hdec]
    rfl
  · have hrow : vectorRow 0x23 = (0xF023, 0xF0FF) := by decide
    have hdec : decode w = decodeTrap 0x23 := decode_of_mem_vectorRow (by rw [hrow]; exact h)
    rw [hdec]
    rfl

/-- Settles O10: the Word at `pc` is a GETC or IN, so the step holds back. -/
theorem getcAndInWaitForAByte : Obligations.GetcAndInWaitForAByte := by
  intro s hr hc hp hq hw
  have hawait : s.awaitsInput = true := s.awaitsInput_iff.mpr ⟨hp, takesInput_decode_of_and hw, hq⟩
  simp [step_running hr, hc, hawait]

/-- What GETC and IN have in common when a byte is there. -/
theorem exec_of_takesInput {i : Instr} {s : State} {b : Byte} {q : List Byte} (hi : takesInput i = true)
    (hq : s.kbq = b :: q) :
    ∃ t, exec i s = .next t ∧ t.reg 0 = zext8 b ∧ t.reg 7 = s.pc ∧ t.pc = s.pc ∧ t.kbq = q ∧ t.run = s.run := by
  cases i <;> cases hi
  case trapGetc.refl =>
    obtain ⟨t, ht, hlink, hreg, -, hkbq, -, -, hpc, -, hrun, -⟩ := getcTakesAByteIntoR0 s b q hq
    exact ⟨t, ht, hreg, hlink, hpc, hkbq, hrun⟩
  case trapIn.refl =>
    obtain ⟨t, ht, hlink, hreg, -, hkbq, -, -, hpc, -, hrun, -⟩ := inPromptsTakesAndEchoesAByte s b q hq
    exact ⟨t, ht, hreg, hlink, hpc, hkbq, hrun⟩

/-- Settles O11: with the byte there the step is no longer held back, and it runs the instruction that waited. -/
theorem aByteLiftsTheWait : Obligations.AByteLiftsTheWait := by
  intro s b hr hc hawait
  obtain ⟨hp, hi, hq⟩ := s.awaitsInput_iff.mp hawait
  have hkbq : (s.supplyInput [b]).kbq = [b] := by rw [State.kbq_supplyInput, hq, List.nil_append]
  have hready : (s.supplyInput [b]).awaitsInput = false :=
    State.awaitsInput_eq_false fun _ => by rw [hkbq]; exact List.cons_ne_nil b []
  have hstep := step_eq_exec_fetch (s := s.supplyInput [b]) hr hc hready
  rw [State.fetch_of_ne (s := s.supplyInput [b]) hp] at hstep
  obtain ⟨t, ht, hreg, hlink, hpc, hempty, hrun⟩ :=
    exec_of_takesInput (s := ((s.supplyInput [b]).setIr (s.word s.pc)).setPc (s.pc + 1)) hi hkbq
  exact ⟨t, rfl, hstep.trans ht, hreg, hlink, hpc, hempty, hrun.trans hr⟩

/-! The ways out of RUNNING (R121) -/

/-- The run state that an instruction leaves. -/
def runAfter (i : Instr) (s : State) : RunState :=
  match i with
  | .trapHalt => .halted
  | .rti => .faulted .illegalOpcode s.ir
  | .res => .faulted .illegalOpcode s.ir
  | .trapUndefined v => .faulted .illegalTrapVector (zext8 v)
  | _ => s.run

theorem run_exec {i : Instr} {s t : State} (h : exec i s = .next t) : t.run = runAfter i s := by
  cases i
  case trapHalt | rti | res | trapUndefined =>
    obtain rfl := Host.Outcome.next.inj h
    rfl
  all_goals exact (execFrame_exec h).run rfl

/-- The run state after a decoded instruction, in the terms of the claim. -/
theorem runAfter_decode {s : State} (hr : s.run = .running) :
    runAfter (decode s.ir) s =
      if decode s.ir = .trapHalt then .halted
      else if decode s.ir = .rti ∨ decode s.ir = .res then .faulted .illegalOpcode s.ir
      else if endsRun (decode s.ir) then .faulted .illegalTrapVector (zext8 (fieldAt s.ir 0 8))
      else .running := by
  cases hi : decode s.ir
  case trapUndefined v =>
    obtain ⟨rfl, -⟩ := eq_fieldAt_of_decode_eq_trapUndefined hi
    simp [runAfter, endsRun]
  all_goals simp [runAfter, endsRun, hr]

theorem runAfter_ne_cancelled (i : Instr) {s : State} (hr : s.run = .running) : runAfter i s ≠ .cancelled := by
  cases i <;> simp [runAfter, hr]

/-- Settles O15: a step is cancelled, waits, or leaves the run state of the instruction it runs. -/
theorem runLeavesRunningOnlyAsListed : Obligations.RunLeavesRunningOnlyAsListed := by
  intro s t hr hstep
  rcases step_cases hstep with ⟨hended, -⟩ | ⟨-, hc, rfl⟩ | ⟨-, hc, ha, rfl⟩ | ⟨-, hc, ha, hexec⟩
  · exact absurd hr hended
  · simp [hc]
  · simp [hc, ha, hr]
  · have hfetch : s.fetch.run = .running := (State.run_fetch s).trans hr
    have hrun := run_exec hexec
    have hne : t.run ≠ .cancelled := hrun ▸ runAfter_ne_cancelled _ hfetch
    refine ⟨by simp [hc, hne], by simp [ha], fun _ _ => ?_⟩
    rw [hrun, runAfter_decode hfetch]

/-! The console streams (10_state.md R33, R34) -/

/-- Settles O19: the fetch moves the streams only by a poll, the instruction only as its frame allows. -/
theorem consoleStreamsMoveForward : Obligations.ConsoleStreamsMoveForward := by
  intro s t hstep
  rcases step_cases hstep with ⟨-, rfl⟩ | ⟨-, -, rfl⟩ | ⟨-, -, -, rfl⟩ | ⟨-, -, -, hexec⟩
  case inr.inr.inr =>
    have frame := execFrame_exec hexec
    obtain ⟨out, hout⟩ := frame.output
    obtain ⟨taken, htaken⟩ := frame.input
    obtain ⟨polled, hpolled⟩ := (walkFrame_memRead s s.pc).kbq
    rw [State.conout_fetch] at hout
    rw [State.kbq_fetch] at htaken
    refine ⟨⟨out, hout⟩, ⟨polled ++ taken, ?_⟩, frame.cancelReq.trans (State.cancelReq_fetch s)⟩
    rw [hpolled, htaken, List.append_assoc]
  all_goals exact ⟨⟨[], (List.append_nil _).symm⟩, ⟨[], rfl⟩, rfl⟩

end Sys2Proof.Machine
end

section
/-!
PROOFS. What holds along every run of the core with its host (00_scope.md R10, R13): an ended run stays as it is (R128),
and the machine stays sound (60_exceptions.md R211 to R213) and goes on.
-/

namespace Sys2Proof.Machine

/-! Ended runs -/

/-- In an ended run an event can change the input queue and the cancellation request only. -/
theorem perform_of_ended {s : State} (h : s.ended) (e : Event) :
    ∃ q c, perform e s = .next ((s.setKbq q).setCancelReq c) := by
  cases e with
  | coreStep => exact ⟨s.kbq, s.cancelReq, step_eq_self_of_ended h⟩
  | input b => exact ⟨s.kbq ++ [b], s.cancelReq, rfl⟩
  | cancel => exact ⟨s.kbq, true, rfl⟩

theorem performAll_of_ended {s t : State} (h : s.ended) {es : List Event} (ht : performAll es s = .next t) :
    ∃ q c, t = (s.setKbq q).setCancelReq c := by
  induction es generalizing s with
  | nil =>
    obtain rfl := Host.Outcome.next.inj ht
    exact ⟨s.kbq, s.cancelReq, rfl⟩
  | cons e es ih =>
    obtain ⟨q, c, he⟩ := perform_of_ended h e
    rw [performAll, he] at ht
    exact ih (s := (s.setKbq q).setCancelReq c) h ht

/-- Settles O14: by induction on the events. -/
theorem anEndedRunStaysEnded : Obligations.AnEndedRunStaysEnded := by
  rintro s t h ⟨es, ht⟩
  obtain ⟨q, c, rfl⟩ := performAll_of_ended h ht
  exact ⟨rfl, fun _ => rfl, rfl, rfl, rfl, rfl, rfl⟩

/-! The invariant -/

/-- Without a fault there is no record to be wrong. -/
theorem State.faultRecordSound_of_running {s : State} (h : s.run = .running) : s.faultRecordSound := by
  simp [State.faultRecordSound, h]

/-- The record that a decoded instruction leaves is about the Word it was decoded from. -/
theorem faultRecordSound_exec {s t : State} (hr : s.run = .running) (h : exec (decode s.ir) s = .next t) :
    t.faultRecordSound := by
  cases hi : decode s.ir <;> rw [hi] at h
  case trapUndefined v =>
    obtain rfl := Host.Outcome.next.inj h
    exact ⟨v, rfl, (eq_fieldAt_of_decode_eq_trapUndefined hi).2, hi, (State.reg_linkR7 s 7).trans (if_pos rfl)⟩
  case trapHalt =>
    obtain rfl := Host.Outcome.next.inj h
    trivial
  case rti =>
    obtain rfl := Host.Outcome.next.inj h
    exact ⟨rfl, .inl hi⟩
  case res =>
    obtain rfl := Host.Outcome.next.inj h
    exact ⟨rfl, .inr hi⟩
  -- every other instruction leaves the machine running
  all_goals exact State.faultRecordSound_of_running ((run_exec h).trans hr)

theorem faultRecordSound_step {s t : State} (h : s.faultRecordSound) (hstep : step s = .next t) :
    t.faultRecordSound := by
  rcases step_cases hstep with ⟨-, rfl⟩ | ⟨-, -, rfl⟩ | ⟨-, -, -, rfl⟩ | ⟨hr, -, -, hexec⟩
  · exact h
  · trivial
  · exact h
  · exact faultRecordSound_exec ((State.run_fetch s).trans hr) hexec

/-- A sound machine has a next state, and it is sound. -/
theorem exists_step_of_sound {s : State} (h : s.sound) : ∃ t, step s = .next t ∧ t.sound := by
  obtain ⟨t, ht, hwf⟩ := everyStepHasANextState s h.1
  exact ⟨t, ht, hwf, faultRecordSound_step h.2 ht⟩

/-- Settles O17: the one next state there is, is sound. -/
theorem everyStepKeepsTheMachineSound : Obligations.EveryStepKeepsTheMachineSound := by
  intro s t h hstep
  obtain ⟨u, hu, hsound⟩ := exists_step_of_sound h
  obtain rfl := Host.Outcome.next.inj (hu.symm.trans hstep)
  exact hsound

/-- The host touches neither memory nor what the record speaks of. -/
theorem exists_perform_of_sound {s : State} (h : s.sound) (e : Event) :
    ∃ t, perform e s = .next t ∧ t.sound := by
  cases e with
  | coreStep => exact exists_step_of_sound h
  | input b => exact ⟨_, rfl, h⟩
  | cancel => exact ⟨_, rfl, h⟩

/-- Settles O18: by induction on the events. -/
theorem soundMachinesStaySoundAndGoOn : Obligations.SoundMachinesStaySoundAndGoOn := by
  intro s h es
  induction es generalizing s with
  | nil => exact ⟨s, rfl, h⟩
  | cons e es ih =>
    obtain ⟨t, ht, hsound⟩ := exists_perform_of_sound h e
    obtain ⟨u, hu, husound⟩ := ih t hsound
    exact ⟨u, by rw [performAll, ht]; exact hu, husound⟩

/-- Settles O23: images are loaded into canonical memory, and a reset leaves no fault. -/
theorem everyResetIsSound : Obligations.EveryResetIsSound :=
  ⟨⟨Memory.wf_nil, trivial⟩, fun images => ⟨State.wf_mem_resetWith images, trivial⟩⟩

end Sys2Proof.Machine
end

section
/-!
PROOFS. The image file format (70_reset_and_hazards.md R243).
-/

namespace Sys2Proof.Machine

/-- The high byte and the low byte of a Word, put together again. -/
theorem bigEndian_bytes (w : Word) :
    bigEndian (BitVec.ofNat 8 (w.toNat / 256)) (BitVec.ofNat 8 (w.toNat % 256)) = w := by
  apply BitVec.eq_of_toNat_eq
  have := w.isLt
  simp only [bigEndian, BitVec.toNat_ofNat, Nat.reducePow, dvd_refl, Nat.mod_mod_of_dvd]
  omega

theorem imageWords_bytes (ws : List Word) :
    imageWords (ws.flatMap fun w => [BitVec.ofNat 8 (w.toNat / 256), BitVec.ofNat 8 (w.toNat % 256)]) = ws := by
  induction ws with
  | nil => rfl
  | cons w ws ih => exact congrArg₂ List.cons (bigEndian_bytes w) ih

/-- Settles O22: the Words are read back by induction on their list, the example is evaluated. -/
theorem imageFilesAreBigEndian : Obligations.ImageFilesAreBigEndian := by
  refine ⟨fun origin words => ?_, by decide, State.word_resetWith_singleWord 0x3000 0x1234⟩
  exact congrArg some (congrArg₂ Image.mk (bigEndian_bytes origin) (imageWords_bytes words))

end Sys2Proof.Machine
end
